-- ==== Sys2Proof/Word.lean ====
section
/-! DEFINITION. The word types of the WOTS+ core: a byte of WMEM, a 32-bit register word, and the byte
strings every operation of the block computes with (spec 00_scope.md R7, R8; 10_state.md R20). -/

namespace Sys2Proof

/-- One byte of the work memory or of a byte string (R8, R50). -/
abbrev Byte := BitVec 8

/-- One 32-bit register value: CMD, an ARG register, or a word of a chain-address (R20, R34). -/
abbrev Word := BitVec 32

/-- A byte string, index 0 first (R8). -/
abbrev Bytes := List Byte

end Sys2Proof
end

