-- ==== Sys2Proof/Config.lean ====
section
/-! DEFINITION. What is fixed for the machine: the constants of the scheme (00_scope.md R5), the shape of
its parameters (R6), and the values the spec leaves open, each an OPAQUE constant that no proof can see
through. The value this hardware gives the parameters H32, H64, ADDR_WORD_LOAD and WMEM_SIZE is
`Sys2Proof.Machine.hw` (Machine/Hash.lean), where a later repair may mend it. -/

namespace Sys2Proof.Config

/-! ### The constants of rule R5 -/

/-- N: every value, key, seed, secret and digest is 32 bytes (R5). -/
abbrev hashBytes : Nat := 32
/-- W: positions on a chain, 0..15 (R5). -/
abbrev chainPositions : Nat := 16
/-- LOGW: bits of one digit (R5). -/
abbrev logW : Nat := 4
/-- LEN1: message digits (R5). -/
abbrev len1 : Nat := 64
/-- LEN2: checksum digits (R5). -/
abbrev len2 : Nat := 3
/-- LEN: chains of a key (R5). -/
abbrev chains : Nat := 67
/-- SIGBYTES: bytes of a signature (R5). -/
abbrev sigBytes : Nat := 2144
/-- ADDRBYTES: bytes of an address (R5). -/
abbrev addrBytes : Nat := 2208
/-- OFF_PUBSEED: where the public seed stands in an address (R5). -/
abbrev offPubseed : Nat := 2144
/-- OFF_TAG: where the tag stands in an address (R5). -/
abbrev offTag : Nat := 2176
/-- CSUM_MAX: the largest checksum (R5). -/
abbrev csumMax : Nat := 960
/-- CSUM_SHIFT: how far the checksum is shifted left before it is serialised (R5, R171). -/
abbrev csumShift : Nat := 4

/-! ### The parameters of rule R6 -/

/-- The byte order of a load of bytes into a 32-bit word (ADDR_WORD_LOAD, R6, R113). -/
inductive ByteOrder where
  | little
  | big
deriving DecidableEq, Repr

/-- The sizes WMEM can have: the powers of two from 8192 to 65536 bytes (R6, 93 I11). -/
inductive WmemSize where
  | kib8
  | kib16
  | kib32
  | kib64
deriving DecidableEq, Repr

/-- log2 of the size in bytes, as PARAM reports it: 13 to 16 (R24). -/
def WmemSize.log2 : WmemSize → Nat
  | .kib8 => 13
  | .kib16 => 14
  | .kib32 => 15
  | .kib64 => 16

/-- The size in bytes. -/
def WmemSize.bytes : WmemSize → Nat
  | .kib8 => 8192
  | .kib16 => 16384
  | .kib32 => 32768
  | .kib64 => 65536

/-- The size in bytes is the power of two that PARAM reports. -/
theorem WmemSize.bytes_eq_two_pow (size : WmemSize) : size.bytes = 2 ^ size.log2 := by
  cases size <;> decide

/-- The parameters (R6): every operation that depends on one takes them as an argument and assumes nothing
of them beyond their types. `h32` and `h64` are total functions of a byte string of any length. The fifth
parameter, ENTROPY, is the free input `State.entropyDraw`. -/
structure Params where
  /-- H32: the 32-byte hash. -/
  h32 : Bytes → Vector Byte 32
  /-- H64: the 64-byte hash. -/
  h64 : Bytes → Vector Byte 64
  /-- ADDR_WORD_LOAD: the byte order in which tag bytes become chain-address words. -/
  addrWordLoad : ByteOrder
  /-- WMEM_SIZE: how many bytes the work memory has. -/
  wmemSize : WmemSize

/-- WMEM_SIZE in bytes (R6, R50). -/
def Params.wmemBytes (P : Params) : Nat := P.wmemSize.bytes

/-! ### What the spec leaves open: free values -/

/-- H64 for this hardware is OPEN (R6, 92_eei_decisions.md D3, 93 I1): a total function to 64 bytes of
which nothing else is known. Log entry 2. -/
opaque h64 : Bytes → Vector Byte 64

/-- The answer of the n-th entropy draw where no answer is waiting in `State.entropy`: 32 bytes, or
`none` for `fail`. No law relates two draws (R6, R35, 93 I5). Log entry 6. -/
opaque entropyAnswer : Nat → Option (Vector Byte 32)

/-- A free byte: the byte at address `a` of the n-th free choice. One choice is made by each power-on
(93 I2), each WMEM read while BUSY (I3) and each abort (I4), and the counter `State.frees` gives each its
own `n`. Log entries 3, 4 and 5. -/
opaque freeByte : (n a : Nat) → Byte

/-- BLOCK_BASE: where the platform puts the block's window in its address map, OPEN (R52, 93 I12). -/
opaque blockBase : Nat

/-- The block offset a platform address names, if it lies in the block's 17-bit window (R22, R52). The
machine itself sees offsets only. -/
def blockOffset (addr : Nat) : Option (BitVec 17) :=
  if blockBase ≤ addr ∧ addr < blockBase + 2 ^ 17 then some (BitVec.ofNat 17 (addr - blockBase)) else none

end Sys2Proof.Config
end

