-- ==== Sys2Proof/Machine/State.lean ====
section
/-! DEFINITION. The state of the WOTS+ core as plain data: the architectural record of 10_state.md R20,
field by field, and beside it the model's own fields: what the agents outside the engine will do next
(host accesses, resets and entropy answers, R13, R231), the answer the bus gave last, and the two counters
that index the free values. -/

namespace Sys2Proof.Machine

/-- The work memory: (address, byte) pairs in one canonical form (`Memory.wf`, Machine/Memory.lean). -/
abbrev Memory := List Host.Cell

/-- The width of a host access (R54): 8, 16 or 32 bits, or any other, of which the block takes none. -/
inductive Width where
  | byte
  | half
  | word
  /-- A width that is none of 8, 16 and 32 bits: a bus error at every offset (R54, 92 D13). -/
  | other
deriving DecidableEq, Repr

/-- One host access to the block's 17-bit window (R22, R51, R54), by block offset. A write of a width
below 32 bits carries its data in the low bits of `value`; the data of a write of another width is never
looked at. -/
inductive Access where
  | read (off : BitVec 17) (width : Width)
  | write (off : BitVec 17) (width : Width) (value : Word)
deriving DecidableEq, Repr

/-- One event of the model (R231): the agents' events are atomic and totally ordered. -/
inductive Event where
  /-- The block receives a host access (R60). -/
  | access (a : Access)
  /-- The engine's turn: while BUSY it performs the command in flight (R91). -/
  | engine
  /-- The reset input of a powered block: a hard reset that keeps WMEM (R250). -/
  | resetInput
  /-- Power-on: a hard reset after which every WMEM byte is any value (R250). -/
  | powerOn
deriving DecidableEq, Repr

/-- What the bus answered to the last host access (R54, R55). -/
inductive Response where
  /-- No access has been answered yet. -/
  | none
  /-- A read was answered with this data, zero-extended to 32 bits. -/
  | data (value : Word)
  /-- A write was taken (performed or ignored). -/
  | written
  /-- A bus error response; its read data is 0 (R55). -/
  | busError
deriving DecidableEq, Repr

/-- Why the machine would stop with a fault. There is no constructor: the spec reports every error of the
block in STATUS as a completion (R220, R223) and every refused host access on the bus (R55), after both of
which the machine goes on. -/
inductive Fault where
deriving DecidableEq, Repr

/-- Why a step would be refused. -/
inductive Refusal where
  /-- An instruction without a meaning in this model; safe, because nothing is then claimed of it. No arm
  of `exec` raises it: every row of the opcode table has its meaning. -/
  | notModelled (mnemonic : String)
deriving DecidableEq, Repr

/-- The state. The first eleven fields are the architectural record of R20; the rest are the model's own
and name what R20 leaves to the agents outside the block. -/
structure State where
  /-- CTRL bit 2: the completion interrupt is enabled (R25). -/
  irqen : Bool
  /-- STATUS bit 0: a command is in flight (R26). -/
  busy : Bool
  /-- STATUS bit 1: the last started command has completed (R26). -/
  done : Bool
  /-- STATUS bit 2: the last completed command ended in error (R26). -/
  err : Bool
  /-- STATUS bit 3: the outcome of the last completed VERIFY (R26). -/
  result : Bool
  /-- STATUS bit 4: a host write was lost while BUSY (R26). -/
  wbusy : Bool
  /-- STATUS bits 15:8: the error code (R26, R220). -/
  errcode : BitVec 8
  /-- STATUS bits 18:16: the ARG register the error names (R26). -/
  errarg : BitVec 3
  /-- The command word (R28). -/
  cmd : Word
  /-- ARG0 to ARG5 (R27). -/
  args : Vector Word 6
  /-- The work memory (R50). -/
  wmem : Memory
  /-- MODEL: the events to come, in the order the block receives them (R60, R231). -/
  events : List Event
  /-- MODEL: the answers the entropy source will give, oldest first; `none` is `fail` (R6, R35). -/
  entropy : List (Option (Vector Byte 32))
  /-- MODEL: the bus's answer to the last host access (R54, R55). -/
  response : Response
  /-- MODEL: how many entropy draws have been made; it indexes `Config.entropyAnswer`. -/
  draws : Nat
  /-- MODEL: how many free choices of bytes have been made; it indexes `Config.freeByte`. -/
  frees : Nat
deriving DecidableEq, Repr

/-- The machine right after reset (R37, R250): every register 0. WMEM lists nothing: a byte nothing has
written reads as 0 (95_test_vectors.md Part 3 starts every program so; log entry 3). The model's own
fields start empty: no event or entropy answer waits, and the counters stand at 0 (log entry 7). -/
def State.reset : State where
  irqen := false
  busy := false
  done := false
  err := false
  result := false
  wbusy := false
  errcode := 0
  errarg := 0
  cmd := 0
  args := #v[0, 0, 0, 0, 0, 0]
  wmem := []
  events := []
  entropy := []
  response := .none
  draws := 0
  frees := 0

end Sys2Proof.Machine
end

