-- ==== Sys2Proof/Machine/Flags.lean ====
section
/-! DEFINITION. The read-only registers and the fields of CTRL and STATUS as register words (10_state.md
R23 to R26), and the interrupt output (R32). -/

namespace Sys2Proof.Machine

/-- ID: the ASCII bytes "WOTS" read as a big-endian word (R23). -/
def idWord : Word := 0x574F5453

/-- PARAM: W = 16 in bits 7:0, LEN = 67 in bits 15:8, WMEM_LOG2 in bits 23:16, IFREV = 1 in bits 31:24
(R24). -/
def paramWord (P : Config.Params) : Word :=
  BitVec.ofNat 32 (Config.chainPositions + Config.chains * 2 ^ 8 + P.wmemSize.log2 * 2 ^ 16 + 1 * 2 ^ 24)

/-- A read of CTRL: zext_32(IRQEN) << 2; START and SRST read 0 (R25). -/
def State.ctrlWord (s : State) : Word := BitVec.ofNat 32 (s.irqen.toNat * 2 ^ 2)

/-- A read of STATUS (R26): BUSY in bit 0, DONE 1, ERR 2, RESULT 3, WBUSY 4, ERRCODE in bits 15:8, ERRARG in
bits 18:16; the reserved bits read 0. -/
def State.statusWord (s : State) : Word :=
  BitVec.ofNat 32 (s.busy.toNat + s.done.toNat * 2 ^ 1 + s.err.toNat * 2 ^ 2 + s.result.toNat * 2 ^ 3
    + s.wbusy.toNat * 2 ^ 4 + s.errcode.toNat * 2 ^ 8 + s.errarg.toNat * 2 ^ 16)

/-- The interrupt output: IRQ = IRQEN ∧ DONE, at every instant (R32, R230). -/
def State.irq (s : State) : Bool := s.irqen && s.done

end Sys2Proof.Machine
end

