-- ==== Sys2Proof/Syntax.lean ====
section
/-! DEFINITION. The commands of the block, one constructor per row of spec/opcode_table.json
(30_encoding.md R77). The operands stand in the ARG registers, not in the command word (R70, R75); only
CHAIN carries immediates (R72, R76). -/

namespace Sys2Proof

/-- A command word, decoded (R77). -/
inductive Instr where
  /-- NOP, opcode 0x00 (R97). -/
  | nop
  /-- PRF, opcode 0x01 (R115). -/
  | prf
  /-- FSTEP, opcode 0x02 (R116). -/
  | fstep
  /-- EXPAND, opcode 0x10 (R133). -/
  | expand
  /-- EXPBASES, opcode 0x11 (R134). -/
  | expbases
  /-- CHAIN, opcode 0x20, with START = CMD[12:8] and STEPS = CMD[20:16], unsigned (R72, R153). -/
  | chain (start steps : Nat)
  /-- HMSG, opcode 0x30 (R174). -/
  | hmsg
  /-- ENCODE, opcode 0x31 (R175). -/
  | encode
  /-- ENCMSG, opcode 0x32 (R176). -/
  | encmsg
  /-- GEN, opcode 0x40 (R194). -/
  | gen
  /-- GENR, opcode 0x41 (R195). -/
  | genr
  /-- SIGN, opcode 0x42 (R196). -/
  | sign
  /-- PKSIG, opcode 0x43 (R197). -/
  | pksig
  /-- VERIFY, opcode 0x44 (R198). -/
  | verify
deriving DecidableEq, Repr

end Sys2Proof
end

