-- ==== Sys2Proof/WellFormed.lean ====
section
/-! DEFINITION. Which commands an encoding exists for: the two immediates of format K are 5-bit fields
(30_encoding.md R72, R76). -/

namespace Sys2Proof

/-- START and STEPS of CHAIN each fit their 5-bit field, 0 to 31 (R72). Every other command has no
immediate and is always well formed (R71). -/
def Instr.wellFormed : Instr → Bool
  | .chain start steps => decide (start < 32) && decide (steps < 32)
  | .nop | .prf | .fstep | .expand | .expbases | .hmsg | .encode | .encmsg
  | .gen | .genr | .sign | .pksig | .verify => true

end Sys2Proof
end

