-- ==== Sys2Proof/Decode.lean ====
section
/-! DEFINITION. The decoder of the command word (30_encoding.md R73) and the encoder (R71, R72, R77).
The command word is one 32-bit register value, CMD; it is never fetched from memory (10_state.md R21). -/

namespace Sys2Proof

/-- Why a command word is rejected: the two decode errors of rule R73. -/
inductive DecodeError where
  /-- The opcode is no row of the opcode map (R78). -/
  | illop
  /-- The opcode is defined and a reserved bit of its format is 1 (R71, R72). -/
  | rsvd
deriving DecidableEq, Repr

/-- Format B: bits 31:8 are reserved and must be zero (R71). -/
def decodeFormatB (w : Word) (i : Instr) : Except DecodeError Instr :=
  if w.extractLsb' 8 24 = 0 then .ok i else .error .rsvd

/-- Format K: bits 31:21 and 15:13 are reserved, STEPS = CMD[20:16], START = CMD[12:8], both
zero-extended (R72, R73). -/
def decodeFormatK (w : Word) : Except DecodeError Instr :=
  if w.extractLsb' 21 11 = 0 ∧ w.extractLsb' 13 3 = 0 then
    .ok (.chain (w.extractLsb' 8 5).toNat (w.extractLsb' 16 5).toNat)
  else .error .rsvd

/-- Decoding of CMD (R73): the opcode CMD[7:0] is looked up first, then the reserved bits of its format
are checked. -/
def decode (w : Word) : Except DecodeError Instr :=
  match (w.extractLsb' 0 8).toNat with
  | 0x00 => decodeFormatB w .nop
  | 0x01 => decodeFormatB w .prf
  | 0x02 => decodeFormatB w .fstep
  | 0x10 => decodeFormatB w .expand
  | 0x11 => decodeFormatB w .expbases
  | 0x20 => decodeFormatK w
  | 0x30 => decodeFormatB w .hmsg
  | 0x31 => decodeFormatB w .encode
  | 0x32 => decodeFormatB w .encmsg
  | 0x40 => decodeFormatB w .gen
  | 0x41 => decodeFormatB w .genr
  | 0x42 => decodeFormatB w .sign
  | 0x43 => decodeFormatB w .pksig
  | 0x44 => decodeFormatB w .verify
  | _ => .error .illop

/-- The opcode byte of a command (R77). -/
def Instr.opcode : Instr → BitVec 8
  | .nop => 0x00
  | .prf => 0x01
  | .fstep => 0x02
  | .expand => 0x10
  | .expbases => 0x11
  | .chain _ _ => 0x20
  | .hmsg => 0x30
  | .encode => 0x31
  | .encmsg => 0x32
  | .gen => 0x40
  | .genr => 0x41
  | .sign => 0x42
  | .pksig => 0x43
  | .verify => 0x44

/-- The command word of a command: for CHAIN `(STEPS << 16) | (START << 8) | 0x20`, the fields standing
clear of one another, and for every other command its opcode below 24 zero bits (R71, R72, R77). -/
def encode (i : Instr) : Word :=
  match i with
  | .chain start steps => BitVec.ofNat 32 (steps * 2 ^ 16 + start * 2 ^ 8 + i.opcode.toNat)
  | .nop | .prf | .fstep | .expand | .expbases | .hmsg | .encode | .encmsg
  | .gen | .genr | .sign | .pksig | .verify => BitVec.ofNat 32 i.opcode.toNat

/-- The instruction the decoder reads from a command word given as the opcode table numbers its bits:
bit 0 is the least significant, and the bits from `nbits` up are 0. -/
def decodeTableWord (nbits w : Nat) : Option Instr :=
  match decode (BitVec.ofNat 32 (w % 2 ^ nbits)) with
  | .ok i => some i
  | .error _ => none

end Sys2Proof
end

