-- ==== Sys2Proof/Machine/Bytes.lean ====
section
/-! DEFINITION. The byte-string notation of 00_scope.md R8: slices, big- and little-endian encodings,
bytewise XOR. -/

namespace Sys2Proof.Machine

/-- `s[i..j)`: the bytes `i` to `j − 1` (R8). -/
def slice (s : Bytes) (i j : Nat) : Bytes := (s.drop i).take (j - i)

/-- `toBE(v, n)`: the n-byte big-endian encoding of v, most significant byte first (R8). -/
def toBE (v : Nat) : Nat → Bytes
  | 0 => []
  | n + 1 => toBE (v / 256) n ++ [BitVec.ofNat 8 v]

@[simp] theorem length_toBE (v n : Nat) : (toBE v n).length = n := by
  induction n generalizing v with
  | zero => rfl
  | succ n ih => simp [toBE, ih]

/-- `fromBE(s)`: a byte string read as a big-endian integer (R8). -/
def fromBE (s : Bytes) : Nat := s.foldl (fun acc b => acc * 256 + b.toNat) 0

/-- `fromLE(s)`: a byte string read as a little-endian integer (R8). -/
def fromLE : Bytes → Nat
  | [] => 0
  | b :: s => b.toNat + 256 * fromLE s

/-- The n bytes of v, least significant first: how a host write lays its value out (R54). -/
def toLE (v : Nat) : Nat → Bytes
  | 0 => []
  | n + 1 => BitVec.ofNat 8 v :: toLE (v / 256) n

@[simp] theorem length_toLE (v n : Nat) : (toLE v n).length = n := by
  induction n generalizing v with
  | zero => rfl
  | succ n ih => simp [toLE, ih]

/-- `a ⊕ b`: byte-by-byte XOR of two strings of equal length (R8). -/
def xorBytes (a b : Bytes) : Bytes := List.zipWith (· ^^^ ·) a b

/-- A byte string loaded into a 32-bit word in the given byte order (R113). -/
def loadWord (order : Config.ByteOrder) (s : Bytes) : Word :=
  match order with
  | .little => BitVec.ofNat 32 (fromLE s)
  | .big => BitVec.ofNat 32 (fromBE s)

end Sys2Proof.Machine
end

