-- ==== Sys2Proof/Machine/Hash.lean ====
section
/-! DEFINITION. The hash functions of this hardware (00_scope.md R6). H32 is SHA-256
(92_eei_decisions.md D2); the spec leaves its internals to general knowledge (93 K1), so the text below is
the published algorithm (FIPS 180-4), PRESUMED (log entry 1) and held against the concrete digests of
95_test_vectors.md. H64 is the OPEN parameter `Config.h64` (D3). -/

namespace Sys2Proof.Machine

/-- The eight working words of SHA-256. -/
structure ShaState where
  a : Word
  b : Word
  c : Word
  d : Word
  e : Word
  f : Word
  g : Word
  h : Word
deriving DecidableEq, Repr

/-- Word `k` of eight packed into one number, the first the most significant. -/
def packedWord (n k : Nat) : Word := BitVec.ofNat 32 (n >>> (32 * (7 - k)))

/-- The initial hash value of SHA-256, packed: the first 32 bits of the fractions of the square roots of the
first 8 primes. -/
def shaInitPacked : Nat :=
  0x6a09e667bb67ae853c6ef372a54ff53a510e527f9b05688c1f83d9ab5be0cd19

/-- The initial hash value of SHA-256. -/
def shaInit : ShaState :=
  let word := packedWord shaInitPacked
  ⟨word 0, word 1, word 2, word 3, word 4, word 5, word 6, word 7⟩

/-- The round constants of SHA-256, eight rounds packed into a number: the first 32 bits of the fractions of
the cube roots of the first 64 primes. -/
def shaConstantsPacked : List Nat :=
  [0x428a2f9871374491b5c0fbcfe9b5dba53956c25b59f111f1923f82a4ab1c5ed5,
   0xd807aa9812835b01243185be550c7dc372be5d7480deb1fe9bdc06a7c19bf174,
   0xe49b69c1efbe47860fc19dc6240ca1cc2de92c6f4a7484aa5cb0a9dc76f988da,
   0x983e5152a831c66db00327c8bf597fc7c6e00bf3d5a7914706ca635114292967,
   0x27b70a852e1b21384d2c6dfc53380d13650a7354766a0abb81c2c92e92722c85,
   0xa2bfe8a1a81a664bc24b8b70c76c51a3d192e819d6990624f40e3585106aa070,
   0x19a4c1161e376c082748774c34b0bcb5391c0cb34ed8aa4a5b9cca4f682e6ff3,
   0x748f82ee78a5636f84c878148cc7020890befffaa4506cebbef9a3f7c67178f2]

/-- The round constants of SHA-256, in round order. -/
def shaConstants : List Word := shaConstantsPacked.flatMap fun n => (List.range 8).map (packedWord n)

/-- Rotate a word right by `n`, 0 < n < 32. -/
def rotr (n : Nat) (x : Word) : Word := (x >>> n) ||| (x <<< (32 - n))

/-- One round of the compression function with round constant `k` and schedule word `w`: `choice` takes each
bit from f where e has a one and from g elsewhere, and `majority` the bit that two of a, b and c agree on. -/
def shaRound (s : ShaState) (k w : Word) : ShaState :=
  let sum1 := rotr 6 s.e ^^^ rotr 11 s.e ^^^ rotr 25 s.e
  let choice := s.g ^^^ (s.e &&& (s.f ^^^ s.g))
  let t1 := s.h + sum1 + choice + k + w
  let sum0 := rotr 2 s.a ^^^ rotr 13 s.a ^^^ rotr 22 s.a
  let majority := (s.a &&& s.b) ||| (s.c &&& (s.a ||| s.b))
  ⟨t1 + (sum0 + majority), s.a, s.b, s.c, s.d + t1, s.e, s.f, s.g⟩

/-- The schedule word that follows a window of the last sixteen, oldest first. -/
def shaNextWord (window : List Word) : Word :=
  let w0 := window.getD 0 0
  let w1 := window.getD 1 0
  let w9 := window.getD 9 0
  let w14 := window.getD 14 0
  (rotr 17 w14 ^^^ rotr 19 w14 ^^^ (w14 >>> 10)) + w9 + (rotr 7 w1 ^^^ rotr 18 w1 ^^^ (w1 >>> 3)) + w0

/-- The rounds of one block: each consumes the next constant and the window's oldest word. -/
def shaRounds : List Word → List Word → ShaState → ShaState
  | k :: ks, w :: window, s =>
    shaRounds ks (window ++ [shaNextWord (w :: window)]) (shaRound s k w)
  | _, _, s => s

/-- The sixteen-word (in general n-word) big-endian reading of a block. -/
def shaBlockWords : Nat → Bytes → List Word
  | 0, _ => []
  | n + 1, s => BitVec.ofNat 32 (fromBE (s.take 4)) :: shaBlockWords n (s.drop 4)

/-- The sum, word by word, that closes one block. -/
def ShaState.add (x y : ShaState) : ShaState :=
  ⟨x.a + y.a, x.b + y.b, x.c + y.c, x.d + y.d, x.e + y.e, x.f + y.f, x.g + y.g, x.h + y.h⟩

/-- The blocks of a padded message, in order. -/
def shaBlocks : Nat → Bytes → ShaState → ShaState
  | 0, _, s => s
  | n + 1, m, s =>
    shaBlocks n (m.drop 64)
      (s.add (shaRounds shaConstants (shaBlockWords 16 m) s))

/-- The padding: a one bit, zeros, and the length in bits as 8 big-endian bytes, to whole blocks. -/
def shaPad (m : Bytes) : Bytes :=
  m ++ [0x80] ++ List.replicate ((119 - m.length % 64) % 64) 0 ++ toBE (8 * m.length) 8

/-- The digest: the eight words, each big-endian. -/
def ShaState.digest (s : ShaState) : Vector Byte 32 :=
  ⟨(toBE s.a.toNat 4 ++ toBE s.b.toNat 4 ++ toBE s.c.toNat 4 ++ toBE s.d.toNat 4 ++
    toBE s.e.toNat 4 ++ toBE s.f.toNat 4 ++ toBE s.g.toNat 4 ++ toBE s.h.toNat 4).toArray, by simp⟩

/-- SHA-256 of a byte string. -/
def sha256 (m : Bytes) : Vector Byte 32 :=
  (shaBlocks ((shaPad m).length / 64) (shaPad m) shaInit).digest

/-- The parameters of this hardware (R6): H32 = SHA-256, H64 open, ADDR_WORD_LOAD = LE, WMEM_SIZE = 65536
(log entries 1, 2, 8 and 18). -/
def hw : Config.Params where
  h32 := sha256
  h64 := Config.h64
  addrWordLoad := .little
  wmemSize := .kib64

end Sys2Proof.Machine
end

