-- ==== Sys2Proof/Machine/Memory.lean ====
section
/-! DEFINITION. WMEM (20_memory.md R50): the byte an address holds, MemRead and MemWrite of 00_scope.md
R9, and the canonical form of the list that holds it. -/

namespace Sys2Proof.Machine

/-- What an address no entry lists reads as: 0 (DESIGN CHOICE, log entry 3). -/
def unlistedByte : Byte := 0

/-- `WMEM[a]`: the byte at an address. -/
def Memory.read : Memory → Nat → Byte
  | [], _ => unlistedByte
  | (k, b) :: m, a => if a = k then b else Memory.read m a

/-- `MemRead(a, n)`: the byte string WMEM[a..a+n) (R9). -/
def Memory.readBytes (m : Memory) (a n : Nat) : Bytes :=
  (List.range n).map fun k => Memory.read m (a + k)

/-- The entries that list the bytes of `v` from address `a` on; a byte that an unlisted address reads as
gets none. -/
def cellsOf (a : Nat) : Bytes → Memory
  | [] => []
  | b :: v => if b = unlistedByte then cellsOf (a + 1) v else (a, b) :: cellsOf (a + 1) v

/-- `MemWrite(a, n, v)` with n = len(v): WMEM[a+k] becomes v[k] (R9). The entries below, the new ones and
those above stay in rising order. -/
def Memory.writeBytes (m : Memory) (a : Nat) (v : Bytes) : Memory :=
  m.filter (fun c => decide (c.1 < a)) ++ cellsOf a v
    ++ m.filter (fun c => decide (a + v.length ≤ c.1))

/-- Several writes, each an address and its bytes, in order: on shared bytes the later wins (R92). -/
def Memory.writeList (m : Memory) (ws : List (Nat × Bytes)) : Memory :=
  ws.foldl (fun m w => Memory.writeBytes m w.1 w.2) m

/-- The canonical form of a memory of `size` bytes: addresses strictly rising and below `size`, and no entry
equal to what an unlisted address reads as. Equal memories are then equal lists. -/
def Memory.wfBelow (size : Nat) (m : Memory) : Bool :=
  decide (m.Pairwise (fun c d => c.1 < d.1))
    && m.all (fun c => decide (c.1 < size) && decide (c.2 ≠ unlistedByte))

/-- The canonical form of this hardware's WMEM. -/
def Memory.wf (m : Memory) : Bool := Memory.wfBelow hw.wmemBytes m

end Sys2Proof.Machine
end

