-- ==== Sys2Proof/Machine/Operands.lean ====
section
/-! DEFINITION. The operand forms (30_encoding.md R74, R75): the descriptor, the operand table of every
opcode, and the checks of 40_command_cycle.md R91, R94 to R96. -/

namespace Sys2Proof.Machine

/-- A buffer descriptor: the buffer is WMEM[addr .. addr+len) (R74). -/
structure Desc where
  addr : Nat
  len : Nat
deriving DecidableEq, Repr

/-- `desc`: ADDR = bits 15:0, LEN = bits 31:16 of an ARG value, unscaled (R9, R74). -/
def descOf (w : Word) : Desc := ⟨(w.extractLsb' 0 16).toNat, (w.extractLsb' 16 16).toNat⟩

/-- What a command does with one ARG register (R75). A fixed length of `none` is a `Dany` operand. -/
inductive Role where
  | ignored
  | input (fixedLen : Option Nat)
  | output (fixedLen : Option Nat)
  | integer
deriving DecidableEq, Repr

/-- The operand table (R75): the roles of ARG0 to ARG5. -/
def operandRoles : Instr → Vector Role 6
  | .nop => #v[.ignored, .ignored, .ignored, .ignored, .ignored, .ignored]
  | .prf => #v[.input (some 32), .input (some 32), .output (some 32), .ignored, .ignored, .ignored]
  | .fstep =>
    #v[.input (some 32), .input (some 32), .input (some 32), .output (some 32), .ignored, .ignored]
  | .expand => #v[.input (some 32), .output none, .ignored, .ignored, .ignored, .ignored]
  | .expbases => #v[.input (some 32), .output (some 2144), .ignored, .ignored, .ignored, .ignored]
  | .chain _ _ =>
    #v[.input (some 32), .input (some 32), .input (some 32), .integer, .output (some 32), .ignored]
  | .hmsg => #v[.input none, .output (some 32), .ignored, .ignored, .ignored, .ignored]
  | .encode => #v[.input (some 32), .output (some 67), .ignored, .ignored, .ignored, .ignored]
  | .encmsg => #v[.input none, .output (some 67), .ignored, .ignored, .ignored, .ignored]
  | .gen => #v[.input (some 32), .output (some 2208), .output (some 32), .ignored, .ignored, .ignored]
  | .genr => #v[.output (some 2208), .output (some 32), .ignored, .ignored, .ignored, .ignored]
  | .sign => #v[.input none, .input (some 32), .output (some 2144), .ignored, .ignored, .ignored]
  | .pksig =>
    #v[.input (some 2144), .input none, .input (some 32), .input (some 32), .output (some 2144), .ignored]
  | .verify => #v[.input (some 2144), .input none, .input (some 2208), .ignored, .ignored, .ignored]

/-- The causes of a command error (R220). -/
inductive ErrorCode where
  | illop
  | rsvd
  | length
  | bounds
  | entropy
deriving DecidableEq, Repr

/-- The ERRCODE value of a cause (R220). -/
def ErrorCode.toByte : ErrorCode → BitVec 8
  | .illop => 0x01
  | .rsvd => 0x02
  | .length => 0x03
  | .bounds => 0x04
  | .entropy => 0x05

/-- `CmdError(code, arg)`: a cause and the ARG register it names, 0 when it names none (R222). -/
structure CmdError where
  code : ErrorCode
  arg : Fin 6
deriving DecidableEq, Repr

/-- The decode errors as command errors; neither names an ARG (R73). -/
def CmdError.ofDecode : DecodeError → CmdError
  | .illop => ⟨.illop, 0⟩
  | .rsvd => ⟨.rsvd, 0⟩

/-- The length check (R96): a `Dany` operand has none. -/
def lengthOk (fixedLen : Option Nat) (d : Desc) : Bool :=
  match fixedLen with
  | none => true
  | some n => decide (d.len = n)

/-- The bounds check (R95): the sum is an unbounded integer. -/
def boundsOk (P : Config.Params) (d : Desc) : Bool := decide (d.addr + d.len ≤ P.wmemBytes)

/-- The checks of one descriptor operand, length before bounds (R94). -/
def checkDesc (P : Config.Params) (k : Fin 6) (fixedLen : Option Nat) (d : Desc) : Option CmdError :=
  if lengthOk fixedLen d = false then some ⟨.length, k⟩
  else if boundsOk P d = false then some ⟨.bounds, k⟩
  else none

/-- The checks of one ARG: an ignored ARG and an integer operand have none (R94). -/
def checkOperand (P : Config.Params) (i : Instr) (args : Vector Word 6) (k : Fin 6) : Option CmdError :=
  match (operandRoles i)[k] with
  | .input fixedLen => checkDesc P k fixedLen (descOf args[k])
  | .output fixedLen => checkDesc P k fixedLen (descOf args[k])
  | .ignored => none
  | .integer => none

/-- The operand checks of a command, ARG0 to ARG5 in increasing index: the first failing check (R94). -/
def checkOperands (P : Config.Params) (i : Instr) (args : Vector Word 6) : Option CmdError :=
  [(0 : Fin 6), 1, 2, 3, 4, 5].findSome? (checkOperand P i args)

/-- `in_k`: the bytes of the input buffer ARGk names (R91). -/
def State.input (s : State) (k : Fin 6) : Bytes :=
  Memory.readBytes s.wmem (descOf s.args[k]).addr (descOf s.args[k]).len

/-- The output buffers of a command whose descriptors pass their own checks (R75, R252). -/
def outputBuffers (P : Config.Params) (i : Instr) (args : Vector Word 6) : List Desc :=
  [(0 : Fin 6), 1, 2, 3, 4, 5].filterMap fun k =>
    match (operandRoles i)[k] with
    | .output fixedLen =>
      if lengthOk fixedLen (descOf args[k]) && boundsOk P (descOf args[k]) then some (descOf args[k])
      else none
    | .input _ => none
    | .ignored => none
    | .integer => none

end Sys2Proof.Machine
end

