-- ==== Sys2Proof/Machine/Ops.lean ====
section
/-! DEFINITION. The shared operations over the state: accepting a start (40_command_cycle.md R90),
completing a command (R93), the one error completion (60_exceptions.md R223) with the host's
acknowledgement beside it (R233), the shared shape of every command (R91), the entropy draw (00_scope.md
R9) and the resets with their abort (70_reset_and_hazards.md R250 to R252). -/

namespace Sys2Proof.Machine

/-! ### Start, completion, error completion, acknowledgement -/

/-- An accepted start (R90): the command in CMD with ARG0 to ARG5 is now in flight. -/
def State.acceptStart (s : State) : State :=
  { s with busy := true, done := false, err := false, result := false, errcode := 0, errarg := 0 }

/-- A host write that is lost because a command is in flight sets WBUSY (R31, R256). -/
def State.loseWrite (s : State) : State := { s with wbusy := true }

/-- A start request (R90): ignored, with WBUSY set, while a command is in flight. -/
def State.requestStart (s : State) : State := if s.busy then s.loseWrite else s.acceptStart

/-- `Complete(r)` (R93). -/
def State.complete (s : State) (r : Bool) : State :=
  { s with busy := false, done := true, err := false, errcode := 0, errarg := 0, result := r }

/-- Taking a command error: `raise CmdError(code, arg)` ends the command with this completion (R222,
R223). STATUS records the cause and the ARG; nothing else changes. -/
def State.raise (s : State) (e : CmdError) : State :=
  { s with busy := false, done := true, err := true, result := false, errcode := e.code.toByte,
           errarg := BitVec.ofNat 3 e.arg.val }

/-- A host write to STATUS (R26), the block's only "return" (R233): bit 1 clears DONE, with no effect
while BUSY, and bit 4 clears WBUSY. -/
def State.writeStatus (s : State) (v : Word) : State :=
  { s with done := s.done && !(v[1] && !s.busy), wbusy := s.wbusy && !v[4] }

/-! ### The shape of every command -/

/-- WMEM after a command's outputs have been written, each at the address of its descriptor, in the order
given (R91, R92). -/
def State.writeOutputs (s : State) (outs : List (Fin 6 × Bytes)) : State :=
  { s with wmem := Memory.writeList s.wmem (outs.map fun o => ((descOf s.args[o.1]).addr, o.2)) }

/-- The end of a command without error: the outputs, in increasing ARG order, and the completion, in one
step (R91, R93). -/
def State.finish (s : State) (outs : List (Fin 6 × Bytes)) (r : Bool) : State :=
  (s.writeOutputs outs).complete r

/-- The operand checks of a command, then its body: a failed check ends it with its error before anything
is read or written (R91, R94). -/
def checked (P : Config.Params) (i : Instr) (s : State) (body : State → State) :
    Host.Outcome State Fault Refusal :=
  match checkOperands P i s.args with
  | some e => .next (s.raise e)
  | none => .next (body s)

/-! ### Entropy -/

/-- The answer of the next draw: the oldest waiting answer, or a free value where none waits (R6, R35). -/
def State.entropyDraw (s : State) : Option (Vector Byte 32) :=
  match s.entropy with
  | a :: _ => a
  | [] => Config.entropyAnswer s.draws

/-- The state after one draw: the answer is used up. -/
def State.drawn (s : State) : State := { s with entropy := s.entropy.tail, draws := s.draws + 1 }

/-! ### Free choices, abort and reset -/

/-- `n` freely chosen bytes for the addresses from `a` on: the current free choice. -/
def State.freeBytes (s : State) (a n : Nat) : Bytes :=
  (List.range n).map fun k => Config.freeByte s.frees (a + k)

/-- The state after one free choice: the next one has an index of its own. -/
def State.freed (s : State) : State := { s with frees := s.frees + 1 }

/-- The output buffers of the command in flight (R252): those of the command CMD decodes to, and none
where it decodes to no command. -/
def State.abortedBuffers (P : Config.Params) (s : State) : List Desc :=
  match decode s.cmd with
  | .ok i => outputBuffers P i s.args
  | .error _ => []

/-- Abort (R252): every WMEM byte of an output buffer of the command in flight becomes any value. -/
def State.scrambleOutputs (P : Config.Params) (s : State) : State :=
  let writes := (s.abortedBuffers P).map fun d => (d.addr, s.freeBytes d.addr d.len)
  { s with wmem := Memory.writeList s.wmem writes }

/-- The registers' reset values (R37); WMEM and the model's own fields are not registers. -/
def State.clearRegisters (s : State) : State :=
  { s with irqen := false, busy := false, done := false, err := false, result := false,
           wbusy := false, errcode := 0, errarg := 0, cmd := 0, args := #v[0, 0, 0, 0, 0, 0] }

/-- A reset of a powered block, hard (R250) or soft (R251): a command in flight is aborted first, then the
registers take their reset values. -/
def State.resetPowered (P : Config.Params) (s : State) : State :=
  if s.busy then (s.scrambleOutputs P).freed.clearRegisters else s.clearRegisters

/-- Power-on (R250): the registers take their reset values and every WMEM byte is any value. -/
def State.powerOn (P : Config.Params) (s : State) : State :=
  ({ s with wmem := Memory.writeBytes [] 0 (s.freeBytes 0 P.wmemBytes) } : State).freed.clearRegisters

end Sys2Proof.Machine
end

