-- ==== Sys2Proof/Machine/Control.lean ====
section
/-! DEFINITION. The control family: NOP (40_command_cycle.md R97). -/

namespace Sys2Proof.Machine

/-- NOP (R97): no operand is checked, nothing is written, and the status fields are those of a completion
with RESULT = 0. -/
def execNop (s : State) : Host.Outcome State Fault Refusal :=
  checked hw .nop s fun s => s.finish [] false

end Sys2Proof.Machine
end

