-- ==== Sys2Proof/Machine/PaddedHash.lean ====
section
/-! DEFINITION. The padded-hash core (41_padded_hash.md): PRF, the chain-address and its serialisation, the
chain-step hash F, and the commands PRF and FSTEP. Every function takes the scheme's parameters (00_scope.md
R6) as its first argument. -/

namespace Sys2Proof.Machine

/-- PAD_F: the padding constant of the step hash (R5). -/
def padF : Nat := 0

/-- PAD_PRF: the padding constant of the PRF (R5). -/
def padPrf : Nat := 3

/-- `pad(n)`: n as 32 bytes big-endian (R110; log entry 9). -/
def pad (n : Nat) : Bytes := toBE n 32

/-- `PRF(key, input) := H32(pad(3) ‖ key ‖ input)` (R111). -/
def prf (P : Config.Params) (key input : Bytes) : Bytes :=
  (P.h32 (pad padPrf ++ key ++ input)).toList

/-- The chain-address: words 0 to 4 from the tag, then chain index, hash-step index and key/mask selector
(10_state.md R34). It lives inside one command. -/
structure ChainAddr where
  head : Vector Word 5
  chain : Word
  step : Word
  sel : Word
deriving DecidableEq, Repr

/-- `caddrBytes(w)`: each of the eight words as 4 bytes big-endian, word 0 first (R112). -/
def caddrBytes (w : ChainAddr) : Bytes :=
  w.head.toList.flatMap (fun x => toBE x.toNat 4)
    ++ toBE w.chain.toNat 4 ++ toBE w.step.toNat 4 ++ toBE w.sel.toNat 4

/-- Word j of a 32-byte chain-address or tag operand: bytes 4j to 4j+3 in the order ADDR_WORD_LOAD
(R113). -/
def caddrWord (P : Config.Params) (c : Bytes) (j : Nat) : Word :=
  loadWord P.addrWordLoad (slice c (4 * j) (4 * j + 4))

/-- `LoadCaddr(c)` (R113). -/
def loadCaddr (P : Config.Params) (c : Bytes) : ChainAddr where
  head := #v[caddrWord P c 0, caddrWord P c 1, caddrWord P c 2, caddrWord P c 3, caddrWord P c 4]
  chain := caddrWord P c 5
  step := caddrWord P c 6
  sel := caddrWord P c 7

/-- The chain-step hash `F(value, ps, w)` (R114): key and mask are PRFs of the chain-address with selector
0 and 1; the selector given is never read. -/
def chainStepHash (P : Config.Params) (value ps : Bytes) (w : ChainAddr) : Bytes :=
  let key := prf P ps (caddrBytes { w with sel := 0 })
  let mask := prf P ps (caddrBytes { w with sel := 1 })
  (P.h32 (pad padF ++ key ++ xorBytes value mask)).toList

/-- PRF (R115): ARG0 key, ARG1 input, ARG2 out. -/
def execPrf (s : State) : Host.Outcome State Fault Refusal :=
  checked hw .prf s fun s => s.finish [(2, prf hw (s.input 0) (s.input 1))] false

/-- FSTEP (R116): ARG0 value, ARG1 pubseed, ARG2 chain-address, ARG3 out; words 5 and 6 come from the
operand too. -/
def execFstep (s : State) : Host.Outcome State Fault Refusal :=
  checked hw .fstep s fun s =>
    s.finish [(3, chainStepHash hw (s.input 0) (s.input 1) (loadCaddr hw (s.input 2)))] false

end Sys2Proof.Machine
end

