-- ==== Sys2Proof/Machine/HashChain.lean ====
section
/-! DEFINITION. The hash-chain engine (43_hash_chain.md): the chain function with its per-step addressing
and its cap, and the command CHAIN. -/

namespace Sys2Proof.Machine

/-- `ChainAddrOf(tag, c)` (R150): words 0 to 4 from the tag, word 5 the chain index. Words 6 and 7 are
overwritten before any hash reads them. -/
def chainAddrOf (P : Config.Params) (tag : Bytes) (c : Word) : ChainAddr :=
  { loadCaddr P tag with chain := c }

/-- The loop of `chain` (R151) at position `i` with `left` steps still requested: it stops when none is
left or before index 16 (R152). -/
def chainLoop (P : Config.Params) (ps : Bytes) : (left i : Nat) → (v : Bytes) → ChainAddr → Bytes
  | 0, _, v, _ => v
  | left + 1, i, v, w =>
    if i < Config.chainPositions then
      let w6 := { w with step := BitVec.ofNat 32 i }
      chainLoop P ps left (i + 1) (chainStepHash P v ps w6) { w6 with sel := 0 }
    else v

/-- `chain(value, s, n, ps, w)` (R151). -/
def chain (P : Config.Params) (value : Bytes) (s n : Nat) (ps : Bytes) (w : ChainAddr) : Bytes :=
  chainLoop P ps n s value w

/-- CHAIN (R153): ARG0 value, ARG1 pubseed, ARG2 tag, ARG3 the chain index (the whole register), ARG4
out; START and STEPS from the command word. -/
def execChain (start steps : Nat) (s : State) : Host.Outcome State Fault Refusal :=
  checked hw (.chain start steps) s fun s =>
    s.finish [(4, chain hw (s.input 0) start steps (s.input 1)
      (chainAddrOf hw (s.input 2) s.args[3]))] false

end Sys2Proof.Machine
end

