-- ==== Sys2Proof/Machine/MessageEncoder.lean ====
section
/-! DEFINITION. The message-digest encoder (44_message_encoder.md): base-16 digits, the checksum, the digit
vector, and the commands HMSG, ENCODE and ENCMSG. -/

namespace Sys2Proof.Machine

/-- `base16(b)`: the two nibbles of each byte, most significant first (R170). -/
def base16 (b : Bytes) : List Nat := b.flatMap fun x => [x.toNat / 16, x.toNat % 16]

/-- `csum(m) = Σ (15 − m[j])` over the message digits (R171). -/
def csum (m : List Nat) : Nat := (m.map fun d => 15 - d).sum

/-- `cbytes(m)`: csum shifted left by 4, as 2 bytes big-endian (R171). -/
def cbytes (m : List Nat) : Bytes := toBE (csum m * 2 ^ Config.csumShift) 2

/-- `cdigits(m)`: the first 3 of the 4 nibbles (R171). -/
def cdigits (m : List Nat) : List Nat := (base16 (cbytes m)).take Config.len2

/-- `encode(g)`: 64 message digits and 3 checksum digits (R172). -/
def encodeDigits (g : Bytes) : List Nat := base16 g ++ cdigits (base16 g)

/-- `digits(M) = encode(H32(M))` (R172). -/
def digits (P : Config.Params) (msg : Bytes) : List Nat := encodeDigits (P.h32 msg).toList

/-- A digit vector as a command writes it: one digit a byte (R173). -/
def digitBytes (d : List Nat) : Bytes := d.map (BitVec.ofNat 8)

/-- HMSG (R174): ARG0 message of any length, ARG1 out. -/
def execHmsg (s : State) : Host.Outcome State Fault Refusal :=
  checked hw .hmsg s fun s => s.finish [(1, (hw.h32 (s.input 0)).toList)] false

/-- ENCODE (R175): ARG0 digest, ARG1 out. -/
def execEncode (s : State) : Host.Outcome State Fault Refusal :=
  checked hw .encode s fun s => s.finish [(1, digitBytes (encodeDigits (s.input 0)))] false

/-- ENCMSG (R176): ARG0 message of any length, ARG1 out. -/
def execEncmsg (s : State) : Host.Outcome State Fault Refusal :=
  checked hw .encmsg s fun s => s.finish [(1, digitBytes (digits hw (s.input 0)))] false

end Sys2Proof.Machine
end

