-- ==== Sys2Proof/Machine/SeedExpander.lean ====
section
/-! DEFINITION. The seed expander (42_seed_expander.md): the stream expander over H64, the PRF-indexed
chain bases, and the commands EXPAND and EXPBASES. -/

namespace Sys2Proof.Machine

/-- The loop of `expand` (R130) with `left` bytes still to emit and the rolling state `state`: one hash of
`state ‖ seed`, its first 32 bytes (or the remainder) out, its last 32 bytes the next state. `fuel` bounds
the iterations; each emits at least one byte. -/
def expandLoop (P : Config.Params) (seed : Bytes) : (fuel left : Nat) → (state : Bytes) → Bytes
  | 0, _, _ => []
  | fuel + 1, left, state =>
    if left = 0 then []
    else
      let d := (P.h64 (state ++ seed)).toList
      slice d 0 (min 32 left) ++ expandLoop P seed fuel (left - min 32 left) (slice d 32 64)

/-- `expand(L, seed)` (R130): the rolling state starts as the seed. -/
def expand (P : Config.Params) (len : Nat) (seed : Bytes) : Bytes := expandLoop P seed len len seed

/-- `base_i(secret) = PRF(secret, toBE(i, 32))`: the bottom of chain i (R131; 90_conflicts.md C2, C4). -/
def chainBase (P : Config.Params) (secret : Bytes) (i : Nat) : Bytes := prf P secret (toBE i 32)

/-- `bases(secret)`: the 67 chain bases in chain order (R131). -/
def bases (P : Config.Params) (secret : Bytes) : Bytes :=
  (List.range Config.chains).flatMap (chainBase P secret)

/-- EXPAND (R133): ARG0 seed, ARG1 out, whose LEN is the output length. -/
def execExpand (s : State) : Host.Outcome State Fault Refusal :=
  checked hw .expand s fun s => s.finish [(1, expand hw (descOf s.args[1]).len (s.input 0))] false

/-- EXPBASES (R134): ARG0 secret, ARG1 out. -/
def execExpbases (s : State) : Host.Outcome State Fault Refusal :=
  checked hw .expbases s fun s => s.finish [(1, bases hw (s.input 0))] false

end Sys2Proof.Machine
end

