-- ==== Sys2Proof/Machine/WotsApi.lean ====
section
/-! DEFINITION. The WOTS+ engine (45_wots_api.md): key generation, signing, public-key recovery and
verification, and the commands GEN, GENR, SIGN, PKSIG and VERIFY. -/

namespace Sys2Proof.Machine

/-- The 67 values `f 0 ‖ … ‖ f 66`, one a chain. -/
def perChain (f : Nat → Bytes) : Bytes := (List.range Config.chains).flatMap f

/-- The public seed and tag of a secret: bytes [2144, 2176) and [2176, 2208) of its 2208-byte expansion;
the bytes before them are discarded (R190, R191; 90_conflicts.md C7). -/
def publicMaterial (P : Config.Params) (secret : Bytes) : Bytes × Bytes :=
  let mat := expand P Config.addrBytes secret
  (slice mat Config.offPubseed Config.offTag, slice mat Config.offTag Config.addrBytes)

/-- `keypair(seed)`: the address (67 chain tops ‖ public seed ‖ tag) and the secret (R190). -/
def keypair (P : Config.Params) (seed : Bytes) : Bytes × Bytes :=
  let secret := expand P 32 seed
  let m := publicMaterial P secret
  let tops := perChain fun i =>
    chain P (chainBase P secret i) 0 15 m.1 (chainAddrOf P m.2 (BitVec.ofNat 32 i))
  (tops ++ m.1 ++ m.2, secret)

/-- `sign(M, secret)`: chain i reveals its value d_i steps above the base (R191). -/
def signMessage (P : Config.Params) (msg secret : Bytes) : Bytes :=
  let d := digits P msg
  let m := publicMaterial P secret
  perChain fun i =>
    chain P (chainBase P secret i) 0 (d.getD i 0) m.1 (chainAddrOf P m.2 (BitVec.ofNat 32 i))

/-- `pkFromSig(sig, M, ps, tag)`: each signature segment completed by its remaining 15 − d_i steps
(R192). -/
def pkFromSig (P : Config.Params) (sig msg ps tag : Bytes) : Bytes :=
  let d := digits P msg
  perChain fun i =>
    chain P (slice sig (32 * i) (32 * i + 32)) (d.getD i 0) (15 - d.getD i 0) ps
      (chainAddrOf P tag (BitVec.ofNat 32 i))

/-- `verify(sig, M, A)`: the recovered tops equal the address's, byte for byte (R193). -/
def verifySig (P : Config.Params) (sig msg address : Bytes) : Bool :=
  decide (pkFromSig P sig msg (slice address Config.offPubseed Config.offTag)
    (slice address Config.offTag Config.addrBytes) = slice address 0 Config.sigBytes)

/-- GEN (R194): ARG0 seed, ARG1 address out, ARG2 secret out. -/
def execGen (s : State) : Host.Outcome State Fault Refusal :=
  checked hw .gen s fun s =>
    s.finish [(1, (keypair hw (s.input 0)).1), (2, (keypair hw (s.input 0)).2)] false

/-- GENR (R195): ARG0 address out, ARG1 secret out; one draw after the operand checks, whose failure is
the error ENTROPY. -/
def execGenr (s : State) : Host.Outcome State Fault Refusal :=
  checked hw .genr s fun s =>
    match s.entropyDraw with
    | none => s.drawn.raise ⟨.entropy, 0⟩
    | some e => s.drawn.finish [(0, (keypair hw e.toList).1), (1, (keypair hw e.toList).2)] false

/-- SIGN (R196): ARG0 message, ARG1 secret, ARG2 signature out. -/
def execSign (s : State) : Host.Outcome State Fault Refusal :=
  checked hw .sign s fun s => s.finish [(2, signMessage hw (s.input 0) (s.input 1))] false

/-- PKSIG (R197): ARG0 signature, ARG1 message, ARG2 pubseed, ARG3 tag, ARG4 out. -/
def execPksig (s : State) : Host.Outcome State Fault Refusal :=
  checked hw .pksig s fun s =>
    s.finish [(4, pkFromSig hw (s.input 0) (s.input 1) (s.input 2) (s.input 3))] false

/-- VERIFY (R198): ARG0 signature, ARG1 message, ARG2 address; no output buffer, RESULT is the outcome. -/
def execVerify (s : State) : Host.Outcome State Fault Refusal :=
  checked hw .verify s fun s =>
    s.finish [] (verifySig hw (s.input 0) (s.input 1) (s.input 2))

end Sys2Proof.Machine
end

