-- ==== Sys2Proof/Machine/Dispatch.lean ====
section
/-! DEFINITION. The dispatch of a decoded command to its meaning, one arm per constructor of `Instr`. -/

namespace Sys2Proof.Machine

def exec (i : Instr) (s : State) : Host.Outcome State Fault Refusal :=
  match i with
  | .nop => Sys2Proof.Machine.execNop s
  | .prf => Sys2Proof.Machine.execPrf s
  | .fstep => Sys2Proof.Machine.execFstep s
  | .expand => Sys2Proof.Machine.execExpand s
  | .expbases => Sys2Proof.Machine.execExpbases s
  | .chain start steps => Sys2Proof.Machine.execChain start steps s
  | .hmsg => Sys2Proof.Machine.execHmsg s
  | .encode => Sys2Proof.Machine.execEncode s
  | .encmsg => Sys2Proof.Machine.execEncmsg s
  | .gen => Sys2Proof.Machine.execGen s
  | .genr => Sys2Proof.Machine.execGenr s
  | .sign => Sys2Proof.Machine.execSign s
  | .pksig => Sys2Proof.Machine.execPksig s
  | .verify => Sys2Proof.Machine.execVerify s

end Sys2Proof.Machine
end

