-- ==== Sys2Proof/Machine/HostPort.lean ====
section
/-! DEFINITION. The host's side of the block: the register window (10_state.md R22 to R29), the WMEM window
(20_memory.md R51), access widths, alignment and bus errors (R54, R55), and the lock while a command is in
flight (70_reset_and_hazards.md R256, R257). -/

namespace Sys2Proof.Machine

/-- The registers of the map (R22). -/
inductive Reg where
  | id
  | param
  | ctrl
  | status
  | cmd
  | arg (k : Fin 6)
  | reserved
deriving DecidableEq, Repr

/-- The register at a 4-byte-aligned offset of the register window (R22, R29). -/
def regAt (off : Nat) : Reg :=
  match off with
  | 0x000 => .id
  | 0x004 => .param
  | 0x008 => .ctrl
  | 0x00C => .status
  | 0x010 => .cmd
  | 0x014 => .arg 0
  | 0x018 => .arg 1
  | 0x01C => .arg 2
  | 0x020 => .arg 3
  | 0x024 => .arg 4
  | 0x028 => .arg 5
  | _ => .reserved

/-- What a register reads as, BUSY or not (R23 to R29, R257); no read has a side effect (R58). -/
def State.readReg (P : Config.Params) (s : State) : Reg → Word
  | .id => idWord
  | .param => paramWord P
  | .ctrl => s.ctrlWord
  | .status => s.statusWord
  | .cmd => s.cmd
  | .arg k => s.args[k]
  | .reserved => 0

/-- A write to CTRL (R25): SRST is a soft reset and the rest of the value is ignored; otherwise IRQEN is
taken from bit 2, even while BUSY, and then START makes a start request. -/
def State.writeCtrl (P : Config.Params) (s : State) (v : Word) : State :=
  if v[1] then s.resetPowered P
  else if v[0] then ({ s with irqen := v[2] } : State).requestStart
  else { s with irqen := v[2] }

/-- A write to a register (R22 to R29): CMD and the ARG registers are locked while BUSY (R256). -/
def State.writeReg (P : Config.Params) (s : State) (r : Reg) (v : Word) : State :=
  match r with
  | .id => s
  | .param => s
  | .ctrl => s.writeCtrl P v
  | .status => s.writeStatus v
  | .cmd => if s.busy then s.loseWrite else { s with cmd := v }
  | .arg k => if s.busy then s.loseWrite else { s with args := s.args.set k v }
  | .reserved => s

/-- How many bytes an access of a width the block takes has (R54). -/
def Width.bytes : Width → Option Nat
  | .byte => some 1
  | .half => some 2
  | .word => some 4
  | .other => none

/-- Where the WMEM window starts in the block's window (R22, R51). -/
def wmemWindow : Nat := 0x10000

/-- How many bytes an access the block takes has (R54): its width is 8, 16 or 32 bits, its offset a multiple
of the width, and in the register window it is 32 bits wide. Every other access is a bus error. -/
def takenBytes (off : Nat) (width : Width) : Option Nat :=
  match width.bytes with
  | none => none
  | some n => if off % n = 0 ∧ (wmemWindow ≤ off ∨ width = .word) then some n else none

/-- What a host read of `n` bytes at WMEM address `a` returns (R51, R54, R257): zero past WMEM_SIZE, free
bytes while BUSY, and otherwise the bytes, little-endian. -/
def State.readWindow (P : Config.Params) (s : State) (a n : Nat) : Word :=
  if P.wmemBytes ≤ a then 0
  else if s.busy then BitVec.ofNat 32 (fromLE (s.freeBytes a n))
  else BitVec.ofNat 32 (fromLE (Memory.readBytes s.wmem a n))

/-- The state after a host read at WMEM address `a`: it changes nothing of the block; one that returned
free bytes has used up a free choice (R58, R257). -/
def State.afterReadWindow (P : Config.Params) (s : State) (a : Nat) : State :=
  if s.busy && decide (a < P.wmemBytes) then s.freed else s

/-- A host write of the low `n` bytes of `v` at WMEM address `a` (R51, R54, R256): ignored past WMEM_SIZE,
lost with WBUSY set while BUSY, and otherwise stored least significant byte first. -/
def State.writeWindow (P : Config.Params) (s : State) (a n : Nat) (v : Word) : State :=
  if P.wmemBytes ≤ a then s
  else if s.busy then s.loseWrite
  else { s with wmem := Memory.writeBytes s.wmem a (toLE v.toNat n) }

/-- The bus's answer to the access. -/
def State.answer (s : State) (r : Response) : State := { s with response := r }

/-- One host access (R51, R54 to R58). -/
def State.access (P : Config.Params) (s : State) : Access → State
  | .read off width =>
    match takenBytes off.toNat width with
    | none => s.answer .busError
    | some n =>
      if wmemWindow ≤ off.toNat then
        (s.afterReadWindow P (off.toNat - wmemWindow)).answer
          (.data (s.readWindow P (off.toNat - wmemWindow) n))
      else s.answer (.data (s.readReg P (regAt off.toNat)))
  | .write off width v =>
    match takenBytes off.toNat width with
    | none => s.answer .busError
    | some n =>
      if wmemWindow ≤ off.toNat then
        (s.writeWindow P (off.toNat - wmemWindow) n v).answer .written
      else (s.writeReg P (regAt off.toNat) v).answer .written

/-- The read data the host sees: a bus error returns 0 (R55). -/
def Response.readData : Response → Word
  | .data v => v
  | .none => 0
  | .written => 0
  | .busError => 0

end Sys2Proof.Machine
end

