-- ==== Sys2Proof/Machine/Engine.lean ====
section
/-! DEFINITION. The engine's step (40_command_cycle.md R91) and the step each event makes
(60_exceptions.md R231). -/

namespace Sys2Proof.Machine

/-- `Perform()` (R91): the command in CMD is decoded and performed whole; a word that does not decode
completes with its error. -/
def perform (s : State) : Host.Outcome State Fault Refusal :=
  match decode s.cmd with
  | .ok i => exec i s
  | .error e => .next (s.raise (CmdError.ofDecode e))

/-- The engine's turn: its step is enabled exactly while BUSY (R91, R98); an idle block does nothing
(R253). -/
def engineTurn (s : State) : Host.Outcome State Fault Refusal :=
  if s.busy then perform s else .next s

/-- The step of one event, already taken off the list (R231). -/
def eventStep (e : Event) (s : State) : Host.Outcome State Fault Refusal :=
  match e with
  | .access a => .next (s.access hw a)
  | .engine => engineTurn s
  | .resetInput => .next (s.resetPowered hw)
  | .powerOn => .next (s.powerOn hw)

/-- The command word an instruction word of the opcode table stands for, `nbits` bits of it given. -/
def tableWord (nbits w : Nat) : Word := BitVec.ofNat 32 (w % 2 ^ nbits)

end Sys2Proof.Machine
end

