-- ==== Sys2Proof/Machine/Step.lean ====
section
/-! DEFINITION. One step of the machine: the next event, or the engine's turn where none is waiting. -/

namespace Sys2Proof.Machine

/-- One step (R231): the oldest waiting event happens; with none waiting the engine has its turn, so a
command in flight completes (R98) and an idle block stays idle (R253). -/
def step (s : State) : Host.Outcome State Fault Refusal :=
  match s.events with
  | [] => engineTurn s
  | e :: rest => eventStep e { s with events := rest }

/-- A command in CMD and in flight, with no event before the engine's turn: what the host's write of CMD and
of CTRL.START leave (R90; log entry 10). -/
def State.withFetchWord (s : State) (nbits w : Nat) : State :=
  { s with cmd := tableWord nbits w, busy := true, events := [] }

end Sys2Proof.Machine
end

