-- ==== Sys2Proof/Safety.lean ====
section
/-! DEFINITION. The terms the claims about the machine are stated in: what a usable operand is, the state
a command leaves when it completes or ends in error, the state a reset leaves, and the invariant every
step keeps, which event comes next, and what the host owes the block. They are written from the spec's rules and not from the operations of Machine/Ops.lean. -/

namespace Sys2Proof.Machine

/-- The buffer a descriptor names ends inside WMEM (R95). -/
abbrev bufferFits (w : Word) : Prop := (descOf w).addr + (descOf w).len ≤ hw.wmemBytes

/-- The buffer a descriptor names has the required length and ends inside WMEM (R95, R96). -/
abbrev bufferOf (w : Word) (n : Nat) : Prop := (descOf w).len = n ∧ bufferFits w

/-- The state a command leaves that completes without error, with its outputs written to `mem` and its
boolean outcome `r` (R93); nothing else has changed (R99). -/
def completedState (s : State) (mem : Memory) (r : Bool) : State :=
  { s with wmem := mem, busy := false, done := true, err := false, result := r, errcode := 0,
           errarg := 0 }

/-- The state a command leaves that ends in an error (R223); nothing else has changed (R221). -/
def erroredState (s : State) (code : BitVec 8) (arg : BitVec 3) : State :=
  { s with busy := false, done := true, err := true, result := false, errcode := code, errarg := arg }

/-- The state a reset leaves, with WMEM as `mem` (R37): every register 0. `frees` is the model's own
counter of free choices. -/
def resetState (s : State) (mem : Memory) (frees : Nat) : State :=
  { s with irqen := false, busy := false, done := false, err := false, result := false, wbusy := false,
           errcode := 0, errarg := 0, cmd := 0, args := #v[0, 0, 0, 0, 0, 0], wmem := mem,
           frees := frees }

/-- The operand ARGk of a command is a descriptor, an input or an output, whose fixed length, if it has
one, is not its LEN (R96). -/
def lengthFails (i : Instr) (args : Vector Word 6) (k : Fin 6) : Prop :=
  ∃ n, ((operandRoles i)[k] = .input (some n) ∨ (operandRoles i)[k] = .output (some n))
    ∧ (descOf args[k]).len ≠ n

/-- The operand ARGk of a command is a descriptor, an input or an output, that ends past WMEM_SIZE
(R95). -/
def boundsFails (i : Instr) (args : Vector Word 6) (k : Fin 6) : Prop :=
  ∃ f, ((operandRoles i)[k] = .input f ∨ (operandRoles i)[k] = .output f) ∧ ¬ bufferFits args[k]

/-- No check of ARGk fails (R94). -/
def operandPasses (i : Instr) (args : Vector Word 6) (k : Fin 6) : Prop :=
  ¬ lengthFails i args k ∧ ¬ boundsFails i args k

/-- Address `a` lies in an output buffer of the command (R75, R99). -/
def inOutputBuffer (i : Instr) (args : Vector Word 6) (a : Nat) : Prop :=
  ∃ (k : Fin 6) (f : Option Nat), (operandRoles i)[k] = .output f
    ∧ (descOf args[k]).addr ≤ a ∧ a < (descOf args[k]).addr + (descOf args[k]).len

/-- Address `a` lies in an output buffer of the command whose descriptor passes its checks: the bytes an abort
may change (R252). -/
def inCheckedOutputBuffer (i : Instr) (args : Vector Word 6) (a : Nat) : Prop :=
  ∃ (k : Fin 6) (f : Option Nat), (operandRoles i)[k] = .output f ∧ operandPasses i args k
    ∧ (descOf args[k]).addr ≤ a ∧ a < (descOf args[k]).addr + (descOf args[k]).len

/-- The STATUS fields a state can hold (R26, R31, R220): while a command is in flight every other field but
WBUSY is 0; ERRCODE is 0 without an error, and with one it is a code of the table and RESULT is 0; ERRARG
names an ARG, and is not 0 only for LENGTH and BOUNDS. -/
abbrev statusConsistent (s : State) : Prop :=
  (s.busy = true → s.done = false ∧ s.err = false ∧ s.result = false)
    ∧ (s.err = false → s.errcode = 0 ∧ s.errarg = 0)
    ∧ (s.err = true → s.result = false ∧ 1 ≤ s.errcode.toNat ∧ s.errcode.toNat ≤ 5)
    ∧ s.errarg.toNat ≤ 5
    ∧ (s.errarg ≠ 0 → s.errcode = 3 ∨ s.errcode = 4)

/-- The invariant: WMEM is in its canonical form, every listed byte inside the 65536 bytes of R50, and
the STATUS fields are consistent. -/
abbrev MachineInv (s : State) : Prop := Memory.wf s.wmem = true ∧ statusConsistent s

/-! ### Which event comes next -/

/-- The engine's turn comes next, with a command in flight (R91): it is due, or no event waits. -/
def engineNext (s : State) : Prop :=
  s.busy = true ∧ (s.events = [] ∨ ∃ rest, s.events = .engine :: rest)

/-- The next event is a host write of the whole register at `off`, of a value that meets `p`. -/
def registerWriteNext (s : State) (off : BitVec 17) (p : Word → Prop) : Prop :=
  ∃ v rest, s.events = .access (.write off .word v) :: rest ∧ p v

/-- The next event is an accepted start (R90). -/
def startNext (s : State) : Prop :=
  s.busy = false ∧ registerWriteNext s 0x008 fun v => v[0] = true ∧ v[1] = false

/-- The next event is a soft reset or the reset input (R250, R251). -/
def poweredResetNext (s : State) : Prop :=
  (registerWriteNext s 0x008 fun v => v[1] = true) ∨ ∃ rest, s.events = .resetInput :: rest

/-- The next event is power-on (R250). -/
def powerOnNext (s : State) : Prop := ∃ rest, s.events = .powerOn :: rest

/-- The next event is an aligned host write to the WMEM window. -/
def wmemWriteNext (s : State) : Prop :=
  ∃ off width v rest n, s.events = .access (.write off width v) :: rest
    ∧ 0x10000 ≤ off.toNat ∧ width.bytes = some n ∧ off.toNat % n = 0

/-- The next event is a write that is lost while a command is in flight (R256): to WMEM, to CMD, to an ARG
register, or a start request. -/
def lockedWriteNext (s : State) : Prop :=
  wmemWriteNext s
    ∨ (∃ off, 0x010 ≤ off.toNat ∧ off.toNat ≤ 0x028 ∧ registerWriteNext s off fun _ => True)
    ∨ (registerWriteNext s 0x008 fun v => v[0] = true ∧ v[1] = false)

/-! ### Obligations of host software (R258, R259) -/

/-- The host keeps the sequencing obligations at this step (R258 (a), (b)): while a command is in flight it
sends no write that is lost and no read of the WMEM window. -/
def hostWaits (s : State) : Prop :=
  s.busy = true → ¬ lockedWriteNext s
    ∧ ¬ ∃ off width rest, s.events = .access (.read off width) :: rest ∧ 0x10000 ≤ off.toNat

/-- A SIGN of the message `msg` under `secret` is started by the next event, or is in flight already (R61:
nothing it uses changes from its start on). Whether it completes, is aborted (R252) or ends in error for
its signature buffer does not matter: the duty is about starting it. -/
def signStarted (s : State) (msg secret : Bytes) : Prop :=
  (startNext s ∨ s.busy = true) ∧ decode s.cmd = .ok .sign
    ∧ operandPasses .sign s.args 0 ∧ operandPasses .sign s.args 1
    ∧ s.input 0 = msg ∧ s.input 1 = secret

/-- The one-time discipline over the states of a run (R200, R259): it starts no two SIGN commands with one
secret and different messages. It is the host's duty and the block does not enforce it. -/
def oneTimeDiscipline (run : List State) : Prop :=
  ∀ s ∈ run, ∀ s' ∈ run, ∀ msg msg' secret,
    signStarted s msg secret → signStarted s' msg' secret → msg = msg'

end Sys2Proof.Machine
end

