-- ==== Sys2Proof/Certificates/Slice0/Obligations.lean ====
section
/-! DEFINITION. The statements for the provers. Each says in its docstring which rule of spec/ it
formalises, or that it is derived; they are listed in OBLIGATIONS.json. -/

open Sys2Proof Sys2Proof.Machine

/-! ### The command word -/

/-- Derived (R71, R72, R73, R77): decoding the encoding of a well-formed command gives the command back,
CHAIN at every START and STEPS its fields admit. -/
def Obligations.DecodeOfEncodeIsTheCommand : Prop :=
  ∀ i : Instr, i.wellFormed = true → decode (encode i) = .ok i

/-- Derived (R71, R72, R77, R79): a word that decodes is the encoding of what it decodes to, so each
command has exactly one word. -/
def Obligations.EncodeOfDecodeIsTheWord : Prop :=
  ∀ (w : Word) (i : Instr), decode w = .ok i → i.wellFormed = true ∧ encode i = w

/-- R73: the opcode is checked before the reserved bits, whatever the other bits are; then START and STEPS
of format K are the zero-extended fields. Neither error names an ARG. -/
def Obligations.DecodeChecksOpcodeThenReservedBits : Prop :=
  ∀ w : Word,
    let opc := (w.extractLsb' 0 8).toNat
    let formatB := [0x00, 0x01, 0x02, 0x10, 0x11, 0x30, 0x31, 0x32, 0x40, 0x41, 0x42, 0x43, 0x44]
    (opc ∉ formatB → opc ≠ 0x20 → decode w = .error .illop)
    ∧ (opc ∈ formatB → w.extractLsb' 8 24 ≠ 0 → decode w = .error .rsvd)
    ∧ (opc ∈ formatB → w.extractLsb' 8 24 = 0 →
        ∃ i : Instr, decode w = .ok i ∧ i.opcode = w.extractLsb' 0 8)
    ∧ (opc = 0x20 → (w.extractLsb' 21 11 ≠ 0 ∨ w.extractLsb' 13 3 ≠ 0) → decode w = .error .rsvd)
    ∧ (opc = 0x20 → w.extractLsb' 21 11 = 0 → w.extractLsb' 13 3 = 0 →
        decode w = .ok (.chain (w.extractLsb' 8 5).toNat (w.extractLsb' 16 5).toNat))
    ∧ CmdError.ofDecode .illop = ⟨.illop, 0⟩ ∧ CmdError.ofDecode .rsvd = ⟨.rsvd, 0⟩

/-- Derived (R72, R77): the command word of each row of the opcode map decodes to that row, CHAIN at two
values of its fields. -/
def Obligations.OpcodeMapWordsDecode : Prop :=
  decode 0x00000000 = .ok .nop ∧ decode 0x00000001 = .ok .prf ∧ decode 0x00000002 = .ok .fstep
  ∧ decode 0x00000010 = .ok .expand ∧ decode 0x00000011 = .ok .expbases
  ∧ decode 0x000F0020 = .ok (.chain 0 15) ∧ decode 0x00040B20 = .ok (.chain 11 4)
  ∧ decode 0x00000030 = .ok .hmsg ∧ decode 0x00000031 = .ok .encode ∧ decode 0x00000032 = .ok .encmsg
  ∧ decode 0x00000040 = .ok .gen ∧ decode 0x00000041 = .ok .genr ∧ decode 0x00000042 = .ok .sign
  ∧ decode 0x00000043 = .ok .pksig ∧ decode 0x00000044 = .ok .verify

/-- Derived (R73, R78, R220, R223): the engine's turn on a command whose word does not decode completes it
with ILLOP or RSVD, ERRARG 0, and nothing else changes, whether the turn is due because no event waits or
is itself the next event. -/
def Obligations.UndecodableCommandCompletesInError : Prop :=
  ∀ s : State, engineNext s →
    let s' : State := { s with events := s.events.tail }
    (decode s.cmd = .error .illop → step s = .next (erroredState s' 0x01 0))
    ∧ (decode s.cmd = .error .rsvd → step s = .next (erroredState s' 0x02 0))

/-! ### The engine's step -/

/-- Derived (R91): while a command is in flight, the engine's turn, whether it is due because no event
waits or is itself the next event, performs exactly the command CMD decodes to. -/
def Obligations.StepRunsTheDecodedCommand : Prop :=
  ∀ (s : State) (i : Instr), s.busy = true → decode s.cmd = .ok i →
    (s.events = [] → step s = exec i s)
    ∧ (∀ rest, s.events = .engine :: rest → step s = exec i { s with events := rest })

/-- Derived (R98, R220, R225): every step of every state answers a next state; no error, bus error, lost
write or reset stops the machine. -/
def Obligations.EveryStepAnswersANextState : Prop :=
  ∀ s : State, ∃ t, step s = .next t

/-- Derived (R91, R93, R98, R223): the engine's turn completes the command in flight in one step, with or
without error, and leaves CMD, the ARG registers, IRQEN, WBUSY and the later events as they were. -/
def Obligations.CommandInFlightCompletesInOneStep : Prop :=
  ∀ s : State, engineNext s →
    ∃ t, step s = .next t ∧ t.busy = false ∧ t.done = true ∧ t.cmd = s.cmd ∧ t.args = s.args
      ∧ t.irqen = s.irqen ∧ t.wbusy = s.wbusy ∧ t.events = s.events.tail

/-! ### Whole-machine rules -/

/-- Derived (R26, R31, R50, R220): every step keeps the invariant: WMEM in canonical form inside its
65536 bytes, and the STATUS fields consistent (while BUSY every other field but WBUSY is 0; ERRCODE is 0
exactly without an error and never a value outside the table; ERRARG names an ARG and only with LENGTH or
BOUNDS). The canonical form is the model's (log entry 3). -/
def Obligations.EveryStepKeepsTheInvariant : Prop :=
  ∀ s t : State, MachineInv s → step s = .next t → MachineInv t

/-- Derived (R32, R37, R253): after reset every register is 0, STATUS reads 0, IRQ is deasserted and the
invariant holds. -/
def Obligations.ResetStateIsIdleAndMeetsTheInvariant : Prop :=
  MachineInv State.reset ∧ State.reset.irqen = false ∧ State.reset.statusWord = 0
  ∧ State.reset.irq = false ∧ State.reset.cmd = 0 ∧ ∀ k : Fin 6, State.reset.args[k] = 0

/-- Derived (R25, R31): the STATUS fields and IRQEN change only by the listed events. WBUSY in
particular is set only by a write that is lost while a command is in flight, so never while the host
waits (R258). -/
def Obligations.StatusChangesOnlyByTheListedEvents : Prop :=
  ∀ s t : State, step s = .next t →
    let reset := poweredResetNext s ∨ powerOnNext s
    (t.irqen ≠ s.irqen → reset ∨ registerWriteNext s 0x008 fun v => v[1] = false)
    ∧ (t.busy = true → s.busy = true ∨ startNext s)
    ∧ (t.busy = false → s.busy = false ∨ engineNext s ∨ reset)
    ∧ (t.done = true → s.done = true ∨ engineNext s)
    ∧ (t.done = false → s.done = false ∨ startNext s ∨ reset
        ∨ (s.busy = false ∧ registerWriteNext s 0x00C fun v => v[1] = true))
    ∧ ((t.err ≠ s.err ∨ t.result ≠ s.result ∨ t.errcode ≠ s.errcode ∨ t.errarg ≠ s.errarg) →
        engineNext s ∨ startNext s ∨ reset)
    ∧ (t.wbusy = true → s.wbusy = true ∨ (s.busy = true ∧ lockedWriteNext s))
    ∧ (t.wbusy = false → s.wbusy = false ∨ reset ∨ registerWriteNext s 0x00C fun v => v[4] = true)
    ∧ (hostWaits s → t.wbusy = true → s.wbusy = true)

/-- Derived (R31, R51, R99, R250, R252, R256): the contents of WMEM change only when a command is
performed, by a host write while no command is in flight, by the abort of a command in flight, or by
power-on. -/
def Obligations.WmemChangesOnlyByCommandHostWriteOrReset : Prop :=
  ∀ s t : State, step s = .next t → t.wmem ≠ s.wmem →
    engineNext s ∨ (s.busy = false ∧ wmemWriteNext s) ∨ (s.busy = true ∧ poweredResetNext s)
    ∨ powerOnNext s

/-- Derived (R99): what a command may write: the bytes of its output buffers and the STATUS fields BUSY,
DONE, ERR, RESULT, ERRCODE and ERRARG; every other byte of WMEM, every ARG, CMD, IRQEN and WBUSY are as
before, and only GENR uses up an entropy answer. -/
def Obligations.CommandFootprint : Prop :=
  ∀ (i : Instr) (s t : State), exec i s = .next t →
    (∀ a, ¬ inOutputBuffer i s.args a → Memory.read t.wmem a = Memory.read s.wmem a)
    ∧ t.args = s.args ∧ t.cmd = s.cmd ∧ t.irqen = s.irqen ∧ t.wbusy = s.wbusy
    ∧ t.events = s.events ∧ t.response = s.response ∧ t.frees = s.frees
    ∧ (i ≠ .genr → t.entropy = s.entropy ∧ t.draws = s.draws)

/-- R100: a command is a function of the ARG values it uses, its input bytes and, for GENR, its one
entropy answer: two states that agree on those end with the same ERR, ERRCODE, ERRARG and RESULT, and
the same bytes in every output buffer when it completes without error. -/
def Obligations.CommandDependsOnItsInputsOnly : Prop :=
  ∀ (i : Instr) (s s' t t' : State), (i = .genr → s.entropyDraw = s'.entropyDraw) →
    (∀ k : Fin 6, (operandRoles i)[k] ≠ .ignored → s.args[k] = s'.args[k]) →
    (∀ (k : Fin 6) (f : Option Nat), (operandRoles i)[k] = .input f → s.input k = s'.input k) →
    exec i s = .next t → exec i s' = .next t' →
    t.err = t'.err ∧ t.errcode = t'.errcode ∧ t.errarg = t'.errarg ∧ t.result = t'.result
    ∧ (t.err = false → ∀ a, inOutputBuffer i s.args a → Memory.read t.wmem a = Memory.read t'.wmem a)

/-- R221: an erroneous command leaves every WMEM byte, every ARG and CMD as they were, whatever the error:
of the decoding, of an operand check, or of the entropy draw. -/
def Obligations.ErroneousCommandWritesNothing : Prop :=
  ∀ s t : State, engineNext s → step s = .next t → t.err = true →
    t.wmem = s.wmem ∧ t.args = s.args ∧ t.cmd = s.cmd

/-- Derived (R220): a decoded command ends in error only for a cause of the table, with that cause's code
and ERRARG. -/
def Obligations.ErrorCodesNameTheirCauses : Prop :=
  ∀ (i : Instr) (s t : State), exec i s = .next t → t.err = true →
    (∃ k : Fin 6, lengthFails i s.args k ∧ t.errcode = 0x03 ∧ t.errarg.toNat = k.val)
    ∨ (∃ k : Fin 6, boundsFails i s.args k ∧ t.errcode = 0x04 ∧ t.errarg.toNat = k.val)
    ∨ (i = .genr ∧ s.entropyDraw = none ∧ t.errcode = 0x05 ∧ t.errarg = 0)

/-- R94: the operand checks run over ARG0 to ARG5 in increasing index, length before bounds at one ARG;
the first that fails is reported with its ARG and nothing is written; ignored ARGs and integer operands
have none, and a command none of whose checks fails completes without error (GENR aside, which may still
fail its draw). -/
def Obligations.OperandChecksReportTheFirstFailure : Prop :=
  ∀ (i : Instr) (s : State),
    (∀ k : Fin 6, (∀ j : Fin 6, j < k → operandPasses i s.args j) →
      (lengthFails i s.args k → exec i s = .next (erroredState s 0x03 (BitVec.ofNat 3 k.val)))
      ∧ (¬ lengthFails i s.args k → boundsFails i s.args k →
          exec i s = .next (erroredState s 0x04 (BitVec.ofNat 3 k.val))))
    ∧ ((∀ k : Fin 6, operandPasses i s.args k) → i ≠ .genr →
        ∃ t, exec i s = .next t ∧ t.err = false ∧ t.done = true ∧ t.errcode = 0)

/-! ### What each command writes -/

/-- Derived (R97, R93): NOP completes whatever the ARG registers hold, clears the error fields and RESULT,
and writes no WMEM byte. -/
def Obligations.NopClearsTheStatusFields : Prop :=
  ∀ s : State, exec .nop s = .next (completedState s s.wmem false)

/-- Derived (R110, R111, R115): PRF writes H32 of pad(3), the key and the input. That pad(3) is 31 zero bytes
and 03 is the spec's choice from general knowledge (log entry 9). -/
def Obligations.PrfWritesThePaddedHash : Prop :=
  ∀ s : State, bufferOf s.args[0] 32 → bufferOf s.args[1] 32 → bufferOf s.args[2] 32 →
    exec .prf s = .next (completedState s
      (Memory.writeBytes s.wmem (descOf s.args[2]).addr
        (hw.h32 (List.replicate 31 0 ++ [3] ++ s.input 0 ++ s.input 1)).toList) false)

/-- Derived (R110, R114, R116): FSTEP writes H32 of pad(0), the key and the masked value, key and mask being
the PRFs under the public seed of the loaded chain-address with selector 0 and 1. That pad(0) is 32 zero
bytes is the spec's choice from general knowledge (log entry 9). -/
def Obligations.FstepWritesTheChainStepHash : Prop :=
  ∀ s : State, bufferOf s.args[0] 32 → bufferOf s.args[1] 32 → bufferOf s.args[2] 32 →
    bufferOf s.args[3] 32 →
    let w := loadCaddr hw (s.input 2)
    let key := prf hw (s.input 1) (caddrBytes { w with sel := 0 })
    let mask := prf hw (s.input 1) (caddrBytes { w with sel := 1 })
    exec .fstep s = .next (completedState s
      (Memory.writeBytes s.wmem (descOf s.args[3]).addr
        (hw.h32 (List.replicate 32 0 ++ key ++ xorBytes (s.input 0) mask)).toList) false)

/-- Derived (R130, R133): EXPAND writes as many bytes of the seed's stream as its output descriptor is
long; any length is accepted. -/
def Obligations.ExpandWritesTheSeedStream : Prop :=
  ∀ s : State, bufferOf s.args[0] 32 → bufferFits s.args[1] →
    exec .expand s = .next (completedState s
      (Memory.writeBytes s.wmem (descOf s.args[1]).addr
        (expand hw (descOf s.args[1]).len (s.input 0))) false)

/-- Derived (R131, R134): EXPBASES writes the 67 PRFs of the counters 0 to 66 under the secret, in chain
order. That the counter is big-endian is the spec's choice from general knowledge (log entry 9). -/
def Obligations.ExpbasesWritesTheChainBases : Prop :=
  ∀ s : State, bufferOf s.args[0] 32 → bufferOf s.args[1] 2144 →
    exec .expbases s = .next (completedState s
      (Memory.writeBytes s.wmem (descOf s.args[1]).addr
        ((List.range 67).flatMap fun n => prf hw (s.input 0) (toBE n 32))) false)

/-- Derived (R150, R151, R153): CHAIN writes the chain from START for STEPS steps, its chain-address
loaded from the tag with word 5 the whole of ARG3, which is never checked. -/
def Obligations.ChainWritesTheChainSegment : Prop :=
  ∀ (start steps : Nat) (s : State), bufferOf s.args[0] 32 → bufferOf s.args[1] 32 →
    bufferOf s.args[2] 32 → bufferOf s.args[4] 32 →
    exec (.chain start steps) s = .next (completedState s
      (Memory.writeBytes s.wmem (descOf s.args[4]).addr
        (chain hw (s.input 0) start steps (s.input 1)
          { loadCaddr hw (s.input 2) with chain := s.args[3] })) false)

/-- Derived (R174): HMSG writes H32 of the message, of any length. -/
def Obligations.HmsgWritesTheMessageDigest : Prop :=
  ∀ s : State, bufferFits s.args[0] → bufferOf s.args[1] 32 →
    exec .hmsg s = .next (completedState s
      (Memory.writeBytes s.wmem (descOf s.args[1]).addr (hw.h32 (s.input 0)).toList) false)

/-- Derived (R170 to R173, R175): ENCODE writes the digits of the digest, one a byte: the high and the low
nibble of each of its 32 bytes, then the checksum, the sum of 15 − m[j] over those 64 digits, as three
big-endian nibbles (its form in 44_message_encoder.md, the sentence that begins "Equivalently"). -/
def Obligations.EncodeWritesTheDigitVector : Prop :=
  ∀ s : State, bufferOf s.args[0] 32 → bufferOf s.args[1] 67 →
    let m := (s.input 0).flatMap fun x => [x.toNat / 16, x.toNat % 16]
    let c := ((List.range 64).map fun j => 15 - m.getD j 0).sum
    exec .encode s = .next (completedState s
      (Memory.writeBytes s.wmem (descOf s.args[1]).addr
        ((m ++ [c / 256, c / 16 % 16, c % 16]).map (BitVec.ofNat 8))) false)

/-- Derived (R172, R173, R176): ENCMSG writes what ENCODE writes for the digest HMSG writes. -/
def Obligations.EncmsgWritesTheDigitsOfTheDigest : Prop :=
  ∀ s : State, bufferFits s.args[0] → bufferOf s.args[1] 67 →
    let g := (hw.h32 (s.input 0)).toList
    exec .encmsg s = .next (completedState s
      (Memory.writeBytes s.wmem (descOf s.args[1]).addr
        ((base16 g ++ cdigits (base16 g)).map (BitVec.ofNat 8))) false)

/-- Derived (R92, R131, R190, R194): for every H32, H64 and load order, the key pair of a seed has the secret
expand(32, seed), the public seed and the tag verbatim from bytes [2144, 2176) and [2176, 2208) of
expand(2208, secret), and as tops the full chains over the chain bases; GEN writes its address and then its
secret. That the chain bases' counter is big-endian is the spec's choice from general knowledge (log entry
9). -/
def Obligations.GenWritesTheKeyPair : Prop :=
  (∀ (P : Config.Params) (seed : Bytes),
    let secret := expand P 32 seed
    let mat := expand P 2208 secret
    let ps := slice mat 2144 2176
    let tag := slice mat 2176 2208
    let tops := (List.range 67).flatMap fun n =>
      chain P (prf P secret (toBE n 32)) 0 15 ps (chainAddrOf P tag (BitVec.ofNat 32 n))
    keypair P seed = (tops ++ ps ++ tag, secret))
  ∧ ∀ s : State, bufferOf s.args[0] 32 → bufferOf s.args[1] 2208 → bufferOf s.args[2] 32 →
    exec .gen s = .next (completedState s
      (Memory.writeBytes
        (Memory.writeBytes s.wmem (descOf s.args[1]).addr (keypair hw (s.input 0)).1)
        (descOf s.args[2]).addr (keypair hw (s.input 0)).2) false)

/-- Derived (R35, R195): GENR makes one draw and, when it answers 32 bytes, writes the address and then
the secret of that seed's key pair (GenWritesTheKeyPair says what it is). -/
def Obligations.GenrWritesTheKeyPairOfItsDraw : Prop :=
  ∀ (s : State) (e : Vector Byte 32), bufferOf s.args[0] 2208 → bufferOf s.args[1] 32 →
    s.entropyDraw = some e →
    exec .genr s = .next (completedState
      { s with entropy := s.entropy.tail, draws := s.draws + 1 }
      (Memory.writeBytes
        (Memory.writeBytes s.wmem (descOf s.args[0]).addr (keypair hw e.toList).1)
        (descOf s.args[1]).addr (keypair hw e.toList).2) false)

/-- Derived (R195, R220, R221): a draw that answers `fail` ends GENR in ENTROPY, ERRARG 0, with nothing
written. -/
def Obligations.GenrFailedDrawEndsInEntropy : Prop :=
  ∀ s : State, bufferOf s.args[0] 2208 → bufferOf s.args[1] 32 → s.entropyDraw = none →
    exec .genr s = .next (erroredState
      { s with entropy := s.entropy.tail, draws := s.draws + 1 } 0x05 0)

/-- Derived (R131, R191, R196): SIGN writes, for each chain, its value the message's digit above the base, with
public seed and tag from the secret's 2208-byte expansion. That the chain bases'
counter is big-endian is the spec's choice from general knowledge (log entry 9). -/
def Obligations.SignWritesTheRevealedChainValues : Prop :=
  ∀ s : State, bufferFits s.args[0] → bufferOf s.args[1] 32 → bufferOf s.args[2] 2144 →
    let mat := expand hw 2208 (s.input 1)
    let d := digits hw (s.input 0)
    exec .sign s = .next (completedState s
      (Memory.writeBytes s.wmem (descOf s.args[2]).addr
        ((List.range 67).flatMap fun n =>
          chain hw (prf hw (s.input 1) (toBE n 32)) 0 (d.getD n 0) (slice mat 2144 2176)
            (chainAddrOf hw (slice mat 2176 2208) (BitVec.ofNat 32 n)))) false)

/-- Derived (R192, R197): PKSIG writes each signature segment completed by its remaining 15 − d steps. -/
def Obligations.PksigWritesTheCompletedChains : Prop :=
  ∀ s : State, bufferOf s.args[0] 2144 → bufferFits s.args[1] → bufferOf s.args[2] 32 →
    bufferOf s.args[3] 32 → bufferOf s.args[4] 2144 →
    let d := digits hw (s.input 1)
    exec .pksig s = .next (completedState s
      (Memory.writeBytes s.wmem (descOf s.args[4]).addr
        ((List.range 67).flatMap fun n =>
          chain hw (slice (s.input 0) (32 * n) (32 * n + 32)) (d.getD n 0) (15 - d.getD n 0)
            (s.input 2) (chainAddrOf hw (s.input 3) (BitVec.ofNat 32 n)))) false)

/-- Derived (R93, R193, R198): VERIFY writes no WMEM byte; RESULT says whether the tops recovered under
the address's public seed and tag equal the address's, and ERR is 0 either way. -/
def Obligations.VerifyReportsWhetherTheTopsMatch : Prop :=
  ∀ s : State, bufferOf s.args[0] 2144 → bufferFits s.args[1] → bufferOf s.args[2] 2208 →
    exec .verify s = .next (completedState s s.wmem
      (decide (pkFromSig hw (s.input 0) (s.input 1) (slice (s.input 2) 2144 2176)
        (slice (s.input 2) 2176 2208) = slice (s.input 2) 0 2144)))

/-- Derived (R92, R194): when GEN's two output buffers overlap, the later one wins: its secret buffer
holds the secret, and the address buffer the address wherever the two do not share a byte (GenWritesTheKeyPair says what both are). -/
def Obligations.GenSecretWinsOnSharedBytes : Prop :=
  ∀ s t : State, bufferOf s.args[0] 32 → bufferOf s.args[1] 2208 → bufferOf s.args[2] 32 →
    exec .gen s = .next t →
    Memory.readBytes t.wmem (descOf s.args[2]).addr 32 = (keypair hw (s.input 0)).2
    ∧ ∀ k < 2208, ((descOf s.args[1]).addr + k < (descOf s.args[2]).addr
          ∨ (descOf s.args[2]).addr + 32 ≤ (descOf s.args[1]).addr + k) →
        (keypair hw (s.input 0)).1[k]? = some (Memory.read t.wmem ((descOf s.args[1]).addr + k))

/-! ### The host's side -/

/-- R90: a write to CTRL with START = 1 and SRST = 0 is a start request: while a command is in flight it
is ignored and sets WBUSY, otherwise it is accepted with the status fields but WBUSY cleared. (IRQEN
follows bit 2 of the same write, R25.) -/
def Obligations.StartRequestIsAcceptedOrSetsWbusy : Prop :=
  ∀ (s : State) (rest : List Event) (v : Word), v[0] = true → v[1] = false →
    (s.busy = true →
      step { s with events := .access (.write 0x008 .word v) :: rest }
        = .next { s with events := rest, response := .written, irqen := v[2], wbusy := true })
    ∧ (s.busy = false →
      step { s with events := .access (.write 0x008 .word v) :: rest }
        = .next { s with events := rest, response := .written, irqen := v[2], busy := true,
                         done := false, err := false, result := false, errcode := 0, errarg := 0 })

/-- Derived (R25, R31): a write to CTRL with neither START nor SRST changes IRQEN and nothing else of the
block, BUSY or not. -/
def Obligations.CtrlWriteWithoutStartSetsIrqenOnly : Prop :=
  ∀ (s : State) (rest : List Event) (v : Word), v[0] = false → v[1] = false →
    step { s with events := .access (.write 0x008 .word v) :: rest }
      = .next { s with events := rest, response := .written, irqen := v[2] }

/-- Derived (R25, R251): a soft reset of an idle block clears every register and keeps WMEM; the START and
IRQEN bits of the same write are ignored. -/
def Obligations.SoftResetOfIdleBlockKeepsWmem : Prop :=
  ∀ (s : State) (rest : List Event) (v : Word), v[1] = true → s.busy = false →
    step { s with events := .access (.write 0x008 .word v) :: rest }
      = .next { resetState s s.wmem s.frees with events := rest, response := .written }

/-- Derived (R250, R251, R252): a soft reset or the reset input while a command is in flight aborts it: the
registers are cleared, and every WMEM byte is unchanged but those of the command's output buffers whose
descriptors pass their checks. Of the bytes inside them nothing is claimed, not even that the two resets
leave the same. -/
def Obligations.AbortChangesOutputBuffersOnly : Prop :=
  ∀ (s : State) (rest : List Event) (v : Word), v[1] = true → s.busy = true →
    let unchangedOutside := fun m : Memory =>
      ∀ a, (∀ i, decode s.cmd = .ok i → ¬ inCheckedOutputBuffer i s.args a) →
        Memory.read m a = Memory.read s.wmem a
    (∃ m, step { s with events := .access (.write 0x008 .word v) :: rest }
        = .next { resetState s m (s.frees + 1) with events := rest, response := .written }
      ∧ unchangedOutside m)
    ∧ (∃ m, step { s with events := .resetInput :: rest }
        = .next { resetState s m (s.frees + 1) with events := rest }
      ∧ unchangedOutside m)

/-- R253: after either reset (power-on, the reset input, or CTRL.SRST) the block is idle with IRQ
deasserted and STATUS 0, does nothing while no event comes, starts a command only on a start request, and
ID and PARAM read their constants. IRQEN, CMD and the ARG registers are 0 too (R37). -/
def Obligations.EveryResetLeavesTheBlockIdle : Prop :=
  ∀ (s : State) (rest : List Event) (v : Word) (e : Event), v[1] = true →
    (e = .powerOn ∨ e = .resetInput ∨ e = .access (.write 0x008 .word v)) →
    ∃ t, step { s with events := e :: rest } = .next t
      ∧ t.busy = false ∧ t.irqen = false ∧ t.irq = false ∧ t.statusWord = 0 ∧ t.cmd = 0
      ∧ (∀ k : Fin 6, t.args[k] = 0)
      ∧ t.readReg hw .id = 0x574F5453 ∧ t.readReg hw .param = 0x01104310
      ∧ (rest = [] → step t = .next t)
      ∧ (∀ u, step t = .next u → u.busy = true → startNext t)

/-- R23, R24, R29: ID reads its constant and every reserved register offset reads 0; PARAM reports the fixed
parameters, 0x01104310 for this hardware's 65536 bytes of WMEM; a write to any of them changes nothing,
WBUSY included, BUSY or not. -/
def Obligations.ConstantAndReservedRegistersIgnoreWrites : Prop :=
  (∀ (s : State) (rest : List Event) (off : BitVec 17) (v : Word),
    off.toNat % 4 = 0 → off.toNat < 0x10000 → (off.toNat ≤ 0x004 ∨ 0x02C ≤ off.toNat) →
    step { s with events := .access (.write off .word v) :: rest }
      = .next { s with events := rest, response := .written }
    ∧ step { s with events := .access (.read off .word) :: rest }
      = .next { s with events := rest, response := .data (if off.toNat = 0x000 then 0x574F5453
                          else if off.toNat = 0x004 then 0x01104310 else 0) })
  ∧ ∀ (P : Config.Params) (s : State),
    (s.readReg P .param).extractLsb' 0 8 = 16 ∧ (s.readReg P .param).extractLsb' 8 8 = 67
    ∧ 2 ^ ((s.readReg P .param).extractLsb' 16 8).toNat = P.wmemBytes
    ∧ (s.readReg P .param).extractLsb' 24 8 = 1 ∧ 8192 ≤ P.wmemBytes ∧ P.wmemBytes ≤ 65536

/-- Derived (R25 to R28, R58, R257): a read of CTRL, STATUS, CMD or an ARG register returns its value,
BUSY or not, and has no side effect. -/
def Obligations.RegisterReadsHaveNoSideEffect : Prop :=
  ∀ (s : State) (rest : List Event) (k : Fin 6),
    step { s with events := .access (.read 0x008 .word) :: rest }
      = .next { s with events := rest, response := .data (if s.irqen then 4 else 0) }
    ∧ step { s with events := .access (.read 0x00C .word) :: rest }
      = .next { s with events := rest, response := .data s.statusWord }
    ∧ step { s with events := .access (.read 0x010 .word) :: rest }
      = .next { s with events := rest, response := .data s.cmd }
    ∧ step { s with events := .access (.read (BitVec.ofNat 17 (0x014 + 4 * k.val)) .word) :: rest }
      = .next { s with events := rest, response := .data s.args[k] }

/-- Derived (R26): where each field stands in a read of STATUS; the reserved bits read 0. -/
def Obligations.StatusWordHoldsTheFields : Prop :=
  ∀ s : State,
    s.statusWord[0] = s.busy ∧ s.statusWord[1] = s.done ∧ s.statusWord[2] = s.err
    ∧ s.statusWord[3] = s.result ∧ s.statusWord[4] = s.wbusy
    ∧ s.statusWord.extractLsb' 5 3 = 0 ∧ s.statusWord.extractLsb' 8 8 = s.errcode
    ∧ s.statusWord.extractLsb' 16 3 = s.errarg ∧ s.statusWord.extractLsb' 19 13 = 0

/-- Derived (R26, R31): a write to STATUS clears DONE by bit 1, unless a command is in flight, and WBUSY
by bit 4, and changes nothing else. -/
def Obligations.StatusWriteClearsDoneAndWbusy : Prop :=
  ∀ (s : State) (rest : List Event) (v : Word),
    step { s with events := .access (.write 0x00C .word v) :: rest }
      = .next { s with events := rest, response := .written,
                       done := if v[1] = true ∧ s.busy = false then false else s.done,
                       wbusy := if v[4] = true then false else s.wbusy }

/-- Derived (R27, R28): while no command is in flight, a write to CMD or ARGk stores the whole word and
changes nothing else. -/
def Obligations.CmdAndArgWritesStoreWhenIdle : Prop :=
  ∀ (s : State) (rest : List Event) (v : Word) (k : Fin 6), s.busy = false →
    step { s with events := .access (.write 0x010 .word v) :: rest }
      = .next { s with events := rest, response := .written, cmd := v }
    ∧ step { s with events := .access (.write (BitVec.ofNat 17 (0x014 + 4 * k.val)) .word v) :: rest }
      = .next { s with events := rest, response := .written, args := s.args.set k v }

/-- Derived (R31, R256): while a command is in flight, an aligned write to CMD, to an ARG register or to
WMEM keeps its target and sets WBUSY, and changes nothing else. -/
def Obligations.WritesAreLostWhileBusy : Prop :=
  ∀ (s : State) (rest : List Event) (off : BitVec 17) (width : Width) (v : Word), s.busy = true →
    ((0x010 ≤ off.toNat ∧ off.toNat ≤ 0x028 ∧ off.toNat % 4 = 0 ∧ width = .word)
      ∨ (0x10000 ≤ off.toNat ∧ ∃ n, width.bytes = some n ∧ off.toNat % n = 0)) →
    step { s with events := .access (.write off width v) :: rest }
      = .next { s with events := rest, response := .written, wbusy := true }

/-- Derived (R51, R54, R58): while no command is in flight, an aligned read of the WMEM window returns the
bytes little-endian and changes nothing of the block. For every size of WMEM, a read past its end returns
0 (this hardware's window ends where its WMEM does). -/
def Obligations.WmemWindowReadsLittleEndian : Prop :=
  (∀ (s : State) (rest : List Event) (off : BitVec 17) (width : Width) (n : Nat), s.busy = false →
    0x10000 ≤ off.toNat → width.bytes = some n → off.toNat % n = 0 →
    step { s with events := .access (.read off width) :: rest }
      = .next { s with events := rest, response := .data (BitVec.ofNat 32
          ((List.range n).map fun k =>
            256 ^ k * (Memory.read s.wmem (off.toNat - 0x10000 + k)).toNat).sum) })
  ∧ ∀ (P : Config.Params) (s : State) (off : BitVec 17) (width : Width) (n : Nat),
    0x10000 + P.wmemBytes ≤ off.toNat → width.bytes = some n → off.toNat % n = 0 →
    s.access P (.read off width) = { s with response := .data 0 }

/-- Derived (R51, R54, R57): while no command is in flight, an aligned write to the WMEM window stores the
value's bytes least significant first, leaves every other byte, and changes no register. For every size of
WMEM, a write past its end changes nothing, WBUSY included, BUSY or not. -/
def Obligations.WmemWindowWritesLittleEndian : Prop :=
  (∀ (s : State) (rest : List Event) (off : BitVec 17) (width : Width) (v : Word) (n : Nat),
    s.busy = false → 0x10000 ≤ off.toNat → width.bytes = some n → off.toNat % n = 0 →
    ∃ m : Memory,
      step { s with events := .access (.write off width v) :: rest }
        = .next { s with events := rest, response := .written, wmem := m }
      ∧ (∀ k < n, Memory.read m (off.toNat - 0x10000 + k) = BitVec.ofNat 8 (v.toNat / 256 ^ k))
      ∧ (∀ a, (a < off.toNat - 0x10000 ∨ off.toNat - 0x10000 + n ≤ a) →
          Memory.read m a = Memory.read s.wmem a))
  ∧ ∀ (P : Config.Params) (s : State) (off : BitVec 17) (width : Width) (v : Word) (n : Nat),
    0x10000 + P.wmemBytes ≤ off.toNat → width.bytes = some n → off.toNat % n = 0 →
    s.access P (.write off width v) = { s with response := .written }

/-- R55: an access of a width that is none of 8, 16 and 32 bits, a misaligned one, or one of 8 or 16 bits to
the register window gets a bus error (R54): no state of the block changes, not even WBUSY, and the read data
is 0. -/
def Obligations.BusErrorChangesNoState : Prop :=
  ∀ (s : State) (rest : List Event) (off : BitVec 17) (width : Width) (v : Word),
    (width = .other ∨ (∃ n, width.bytes = some n ∧ off.toNat % n ≠ 0)
      ∨ (off.toNat < 0x10000 ∧ width ≠ .word)) →
    step { s with events := .access (.read off width) :: rest }
      = .next { s with events := rest, response := .busError }
    ∧ step { s with events := .access (.write off width v) :: rest }
      = .next { s with events := rest, response := .busError }
    ∧ Response.busError.readData = 0

/-- Derived (R257): a WMEM read while a command is in flight answers some value and changes nothing of the
block (the model's counter of free choices advances). Of the value nothing is claimed. -/
def Obligations.WmemReadWhileBusyChangesNothing : Prop :=
  ∀ (s : State) (rest : List Event) (off : BitVec 17) (width : Width) (n : Nat), s.busy = true →
    0x10000 ≤ off.toNat → width.bytes = some n → off.toNat % n = 0 →
    ∃ v : Word, step { s with events := .access (.read off width) :: rest }
      = .next { s with events := rest, response := .data v, frees := s.frees + 1 }

/-- Derived (R32, R230): the interrupt follows completion: the step that completes a command, with or
without error, raises IRQ exactly if IRQEN is set; writing 1 to DONE, or clearing IRQEN, lowers it. -/
def Obligations.IrqFollowsCompletion : Prop :=
  (∀ s t : State, engineNext s → step s = .next t → t.irq = s.irqen)
  ∧ (∀ (s t : State) (rest : List Event) (v : Word), s.busy = false → v[1] = true →
      step { s with events := .access (.write 0x00C .word v) :: rest } = .next t → t.irq = false)
  ∧ (∀ (s t : State) (rest : List Event) (v : Word), v[2] = false →
      step { s with events := .access (.write 0x008 .word v) :: rest } = .next t → t.irq = false)

/-! ### The scheme, for every H32, H64 and load order -/

/-- Derived (43_hash_chain.md, Laws and uses, which the spec derives from R151 and R152): the laws of the
chain: (a) composition up to the cap, (b) one step is F at that index, (c) no step
requested, or a start past the end, is the identity, (d) words 6 and 7 on entry never matter. -/
def Obligations.ChainComposesAndStopsAtTheCap : Prop :=
  ∀ (P : Config.Params) (v ps : Bytes) (w : ChainAddr),
    (∀ s a b, s + a ≤ 16 →
      chain P (chain P v s a ps w) (s + a) b ps w = chain P v s (a + b) ps w)
    ∧ (∀ j, j ≤ 15 →
      chain P v j 1 ps w = chainStepHash P v ps { w with step := BitVec.ofNat 32 j })
    ∧ (∀ s, chain P v s 0 ps w = v) ∧ (∀ s n, 16 ≤ s → chain P v s n ps w = v)
    ∧ (∀ s n (x y : Word), chain P v s n ps { w with step := x, sel := y } = chain P v s n ps w)

/-- R152 (over R151): the number of F steps is max(0, min(s + n, 16) − s), one at each index from s on,
so every hash-step index is in s .. 15. -/
def Obligations.ChainStepsRunFromStartToTheCap : Prop :=
  ∀ (P : Config.Params) (v ps : Bytes) (w : ChainAddr) (s n : Nat),
    chain P v s n ps w
      = (List.range' s (min (s + n) 16 - s)).foldl
          (fun x j => chainStepHash P x ps { w with step := BitVec.ofNat 32 j }) v

/-- R150: words 0 to 4 come from tag bytes 0..19 and word 5 is the chain index, so bytes 20..31 of the tag
never affect a chain value. -/
def Obligations.TagTailNeverReachesAHash : Prop :=
  ∀ (P : Config.Params) (tag tag' v ps : Bytes) (c : Word) (s n : Nat),
    tag.length = 32 → tag'.length = 32 → tag.take 20 = tag'.take 20 →
    (chainAddrOf P tag c).head = (loadCaddr P tag).head ∧ (chainAddrOf P tag c).chain = c
    ∧ chain P v s n ps (chainAddrOf P tag c) = chain P v s n ps (chainAddrOf P tag' c)

/-- Derived (R112, R113): loading a chain-address and serialising it reverses the bytes of every 4-byte
group under LE and is the identity under BE. -/
def Obligations.CaddrLoadReversesGroupsUnderLittleEndian : Prop :=
  ∀ (P : Config.Params) (tag : Bytes), tag.length = 32 →
    (P.addrWordLoad = .big → caddrBytes (loadCaddr P tag) = tag)
    ∧ (P.addrWordLoad = .little → ∀ j < 8, ∀ k < 4,
        (caddrBytes (loadCaddr P tag))[4 * j + k]? = tag[4 * j + (3 - k)]?)

/-- R130: the stream is the first halves of ceil(L / 32) hashes of the rolling state and the seed, cut
to L bytes; the next state is the second half. -/
def Obligations.ExpandIsTheRollingHashStream : Prop :=
  ∀ (P : Config.Params) (seed : Bytes) (len : Nat),
    let rolling := fun k : Nat =>
      Nat.iterate (fun state : Bytes => slice (P.h64 (state ++ seed)).toList 32 64) k seed
    expand P len seed
      = ((List.range ((len + 31) / 32)).flatMap fun k =>
          slice (P.h64 (rolling k ++ seed)).toList 0 32).take len

/-- Derived (42_seed_expander.md, Properties a model can check (a), which the spec derives from R130): a
shorter stream is a prefix of a longer one. -/
def Obligations.ExpandShorterIsAPrefix : Prop :=
  ∀ (P : Config.Params) (seed : Bytes) (short long : Nat), short ≤ long →
    expand P short seed = (expand P long seed).take short

/-- Derived (R110, R111, R131): the chain bases are 67 blocks of 32 bytes, the i-th the PRF of the 32-byte
counter i under the secret. That pad(3) is 31 zero bytes and 03, and that the counter is big-endian, are the
spec's choices from general knowledge (log entry 9). -/
def Obligations.ChainBasesArePrfsOfTheCounter : Prop :=
  ∀ (P : Config.Params) (secret : Bytes), (bases P secret).length = 67 * 32 ∧
    ∀ i < 67, slice (bases P secret) (32 * i) (32 * i + 32)
      = (P.h32 (List.replicate 31 0 ++ [3] ++ secret ++ toBE i 32)).toList

/-- Derived (R170, R171, and 44_message_encoder.md, Checksum digits, the sentence that begins "Equivalently",
which the spec marks as its own inference): byte k of a string gives digit 2k, its high nibble, and digit
2k + 1, its low one; the checksum of 64 digits is the sum of 15 − m[j], at most 960; its two bytes hold it
shifted left by 4, and its three digits are its big-endian nibbles. -/
def Obligations.ChecksumDigitsAreItsNibbles : Prop :=
  (∀ b : Bytes, (base16 b).length = 2 * b.length ∧ ∀ k < b.length,
    (base16 b)[2 * k]? = some ((b.getD k 0).toNat / 16)
    ∧ (base16 b)[2 * k + 1]? = some ((b.getD k 0).toNat % 16))
  ∧ ∀ m : List Nat, m.length = 64 → (∀ d ∈ m, d ≤ 15) →
    csum m = ((List.range 64).map fun j => 15 - m.getD j 0).sum ∧ csum m ≤ 960
    ∧ cbytes m = [BitVec.ofNat 8 (csum m * 16 / 256), BitVec.ofNat 8 (csum m * 16)]
    ∧ cdigits m = [csum m / 256, csum m / 16 % 16, csum m % 16]

/-- Derived (44_message_encoder.md, Why the checksum matters; the spec marks it as an inference and
gives only the part about one raised digit): the checksum does its work: of two different digests, each
digit vector has a digit below the other's, so no signature can be turned into one of another digest by
going up its chains alone. -/
def Obligations.NoDigitVectorDominatesAnother : Prop :=
  ∀ g g' : Bytes, g.length = 32 → g'.length = 32 → g ≠ g' →
    ∃ i < 67, (encodeDigits g').getD i 0 < (encodeDigits g).getD i 0

/-- Derived (45_wots_api.md, Properties and usage discipline (b), (c), which the spec derives from R190 to
R193): for every H32, H64 and load order, what is signed under a generated secret
recovers the address's tops and verifies under its address. -/
def Obligations.SignedMessagesVerify : Prop :=
  ∀ (P : Config.Params) (seed msg : Bytes),
    let A := (keypair P seed).1
    let sig := signMessage P msg (keypair P seed).2
    pkFromSig P sig msg (slice A 2144 2176) (slice A 2176 2208) = slice A 0 2144
    ∧ verifySig P sig msg A = true

/-- Derived (R198, and 45_wots_api.md, Properties and usage discipline (b), an inference of the spec):
VERIFY completes with RESULT = 1, WMEM unchanged, on every state whose buffers hold a generated address
and the signature of the message under its secret, wherever they lie. -/
def Obligations.VerifyCommandAcceptsAGenuineSignature : Prop :=
  ∀ (s : State) (seed : Bytes), bufferOf s.args[0] 2144 → bufferFits s.args[1] →
    bufferOf s.args[2] 2208 → s.input 2 = (keypair hw seed).1 →
    s.input 0 = signMessage hw (s.input 1) (keypair hw seed).2 →
    exec .verify s = .next (completedState s s.wmem true)
end

