-- ==== Sys2Proof/Laws/Memory.lean ====
section
/-! SUPPORT. What the memory operations do, said once: reading a byte after a write, the length of what is
read, and that every write inside WMEM keeps the canonical form. -/

namespace Sys2Proof.Machine

/-! ### Reading as a search -/

theorem Memory.read_nil (a : Nat) : Memory.read [] a = unlistedByte := rfl

theorem Memory.read_cons (k : Nat) (b : Byte) (m : Memory) (a : Nat) :
    Memory.read ((k, b) :: m) a = if a = k then b else Memory.read m a := rfl

/-- An address no entry lists reads as an unlisted byte. -/
theorem Memory.read_unlisted {m : Memory} {a : Nat} (h : ∀ c ∈ m, c.1 ≠ a) :
    Memory.read m a = unlistedByte := by
  induction m with
  | nil => rfl
  | cons c m ih =>
    rw [show c = (c.1, c.2) from rfl, Memory.read_cons, if_neg (fun e => h c (by simp) e.symm)]
    exact ih fun d hd => h d (by simp [hd])

/-- Reading past a first part that does not list the address. -/
theorem Memory.read_append_right {m n : Memory} {a : Nat} (h : ∀ c ∈ m, c.1 ≠ a) :
    Memory.read (m ++ n) a = Memory.read n a := by
  induction m with
  | nil => rfl
  | cons c m ih =>
    rw [List.cons_append, show c = (c.1, c.2) from rfl, Memory.read_cons,
      if_neg (fun e => h c (by simp) e.symm)]
    exact ih fun d hd => h d (by simp [hd])

/-- Reading where a second part does not list the address. -/
theorem Memory.read_append_left {m n : Memory} {a : Nat} (h : ∀ c ∈ n, c.1 ≠ a) :
    Memory.read (m ++ n) a = Memory.read m a := by
  induction m with
  | nil => exact Memory.read_unlisted h
  | cons c m ih =>
    rw [List.cons_append, show c = (c.1, c.2) from rfl, Memory.read_cons, Memory.read_cons, ih]

/-- A filter that keeps every entry of an address does not change what it reads as. -/
theorem Memory.read_filter {m : Memory} {a : Nat} {p : Host.Cell → Bool} (h : ∀ b, p (a, b) = true) :
    Memory.read (m.filter p) a = Memory.read m a := by
  induction m with
  | nil => rfl
  | cons c m ih =>
    obtain ⟨k, b⟩ := c
    by_cases hk : a = k
    · subst hk
      rw [List.filter_cons_of_pos (h b), Memory.read_cons, Memory.read_cons]
      simp
    · rw [Memory.read_cons, if_neg hk, ← ih, List.filter_cons]
      split
      · rw [Memory.read_cons, if_neg hk]
      · rfl

/-! ### The entries of a run of bytes -/

theorem mem_cellsOf {a : Nat} {v : Bytes} {c : Host.Cell} (h : c ∈ cellsOf a v) :
    a ≤ c.1 ∧ c.1 < a + v.length ∧ c.2 ≠ unlistedByte := by
  induction v generalizing a with
  | nil => simp [cellsOf] at h
  | cons b v ih =>
    simp only [cellsOf] at h
    split at h
    · obtain ⟨h1, h2, h3⟩ := ih h
      simp only [List.length_cons]
      exact ⟨by omega, by omega, h3⟩
    · rcases List.mem_cons.mp h with rfl | h
      · simp_all
      · obtain ⟨h1, h2, h3⟩ := ih h
        simp only [List.length_cons]
        exact ⟨by omega, by omega, h3⟩

theorem cellsOf_rising (a : Nat) (v : Bytes) : (cellsOf a v).Pairwise fun c d => c.1 < d.1 := by
  induction v generalizing a with
  | nil => exact List.Pairwise.nil
  | cons b v ih =>
    simp only [cellsOf]
    split
    · exact ih (a + 1)
    · refine List.pairwise_cons.mpr ⟨fun d hd => ?_, ih (a + 1)⟩
      have := (mem_cellsOf hd).1
      simp only
      omega

theorem read_cellsOf (a : Nat) (v : Bytes) (k : Nat) (h : k < v.length) :
    Memory.read (cellsOf a v) (a + k) = v[k] := by
  induction v generalizing a k with
  | nil => simp at h
  | cons b v ih =>
    cases k with
    | zero =>
      simp only [cellsOf]
      split
      · rename_i hb
        rw [Memory.read_unlisted]
        · simp [hb]
        · intro c hc
          have := (mem_cellsOf hc).1
          omega
      · simp [Memory.read_cons]
    | succ k =>
      have hk : k < v.length := by simpa using h
      have := ih (a + 1) k hk
      simp only [cellsOf]
      split
      · simpa [Nat.add_assoc, Nat.add_comm 1 k] using this
      · rw [Memory.read_cons, if_neg (by omega)]
        simpa [Nat.add_assoc, Nat.add_comm 1 k] using this

/-! ### Reading after a write -/

/-- A byte inside the run written reads as the byte written. -/
theorem Memory.read_writeBytes_inside (m : Memory) (a : Nat) (v : Bytes) (k : Nat) (h : k < v.length) :
    Memory.read (Memory.writeBytes m a v) (a + k) = v[k] := by
  unfold Memory.writeBytes
  rw [Memory.read_append_left, Memory.read_append_right, read_cellsOf a v k h]
  · intro c hc
    have := of_decide_eq_true (List.mem_filter.mp hc).2
    omega
  · intro c hc
    have := of_decide_eq_true (List.mem_filter.mp hc).2
    omega

/-- A byte outside the run written reads as before. -/
theorem Memory.read_writeBytes_outside (m : Memory) (a : Nat) (v : Bytes) (x : Nat)
    (h : x < a ∨ a + v.length ≤ x) :
    Memory.read (Memory.writeBytes m a v) x = Memory.read m x := by
  unfold Memory.writeBytes
  have hc : ∀ c ∈ cellsOf a v, c.1 ≠ x := by
    intro c hc
    have := mem_cellsOf hc
    omega
  rcases h with h | h
  · rw [Memory.read_append_left, Memory.read_append_left hc, Memory.read_filter (by simp [h])]
    intro c hc
    have := of_decide_eq_true (List.mem_filter.mp hc).2
    omega
  · rw [List.append_assoc, Memory.read_append_right, Memory.read_append_right hc,
      Memory.read_filter (by simp [h])]
    intro c hc
    have := of_decide_eq_true (List.mem_filter.mp hc).2
    omega

/-- An address outside every run of a list of writes reads as before. -/
theorem Memory.read_writeList_outside (ws : List (Nat × Bytes)) (m : Memory) (x : Nat)
    (h : ∀ w ∈ ws, x < w.1 ∨ w.1 + w.2.length ≤ x) :
    Memory.read (Memory.writeList m ws) x = Memory.read m x := by
  induction ws generalizing m with
  | nil => rfl
  | cons w ws ih =>
    have := ih (Memory.writeBytes m w.1 w.2) fun w' hw' => h w' (by simp [hw'])
    rw [show Memory.writeList m (w :: ws) = Memory.writeList (Memory.writeBytes m w.1 w.2) ws from rfl,
      this, Memory.read_writeBytes_outside _ _ _ _ (h w (by simp))]

@[simp] theorem Memory.length_readBytes (m : Memory) (a n : Nat) :
    (Memory.readBytes m a n).length = n := by
  simp [Memory.readBytes]

@[simp] theorem Memory.getElem_readBytes (m : Memory) (a n k : Nat)
    (h : k < (Memory.readBytes m a n).length) :
    (Memory.readBytes m a n)[k] = Memory.read m (a + k) := by
  simp [Memory.readBytes]

/-- What was written is read back. -/
theorem Memory.readBytes_writeBytes (m : Memory) (a : Nat) (v : Bytes) :
    Memory.readBytes (Memory.writeBytes m a v) a v.length = v := by
  apply List.ext_getElem
  · simp
  · intro k h1 h2
    rw [Memory.getElem_readBytes, Memory.read_writeBytes_inside _ _ _ _ h2]

@[simp] theorem Memory.writeList_nil (m : Memory) : Memory.writeList m [] = m := rfl

@[simp] theorem Memory.writeList_cons (m : Memory) (w : Nat × Bytes) (ws : List (Nat × Bytes)) :
    Memory.writeList m (w :: ws) = Memory.writeList (Memory.writeBytes m w.1 w.2) ws := rfl

/-! ### The canonical form -/

theorem Memory.wf_iff (m : Memory) : Memory.wf m = true ↔
    m.Pairwise (fun c d => c.1 < d.1) ∧ ∀ c ∈ m, c.1 < hw.wmemBytes ∧ c.2 ≠ unlistedByte := by
  simp [Memory.wf, Memory.wfBelow]

theorem Memory.wf_nil : Memory.wf [] = true := rfl

/-- Every write inside WMEM keeps the canonical form. -/
theorem Memory.wf_writeBytes {m : Memory} (hm : Memory.wf m = true) {a : Nat} {v : Bytes}
    (h : a + v.length ≤ hw.wmemBytes) : Memory.wf (Memory.writeBytes m a v) = true := by
  rw [Memory.wf_iff] at hm ⊢
  obtain ⟨hr, hc⟩ := hm
  unfold Memory.writeBytes
  constructor
  · refine List.pairwise_append.mpr ⟨List.pairwise_append.mpr ⟨hr.filter _, cellsOf_rising a v, ?_⟩,
      hr.filter _, ?_⟩
    · intro c hc d hd
      have h1 := of_decide_eq_true (List.mem_filter.mp hc).2
      have h2 := mem_cellsOf hd
      omega
    · intro c hc d hd
      have h2 := of_decide_eq_true (List.mem_filter.mp hd).2
      rcases List.mem_append.mp hc with hc | hc
      · have h1 := of_decide_eq_true (List.mem_filter.mp hc).2
        omega
      · have h1 := mem_cellsOf hc
        omega
  · intro c hcm
    rcases List.mem_append.mp hcm with hcm | hcm
    · rcases List.mem_append.mp hcm with hcm | hcm
      · exact hc c (List.mem_filter.mp hcm).1
      · have := mem_cellsOf hcm
        exact ⟨by omega, this.2.2⟩
    · exact hc c (List.mem_filter.mp hcm).1

/-- A list of writes inside WMEM keeps the canonical form. -/
theorem Memory.wf_writeList {ws : List (Nat × Bytes)} {m : Memory} (hm : Memory.wf m = true)
    (h : ∀ w ∈ ws, w.1 + w.2.length ≤ hw.wmemBytes) : Memory.wf (Memory.writeList m ws) = true := by
  induction ws generalizing m with
  | nil => exact hm
  | cons w ws ih =>
    exact ih (Memory.wf_writeBytes hm (h w (by simp))) fun w' hw' => h w' (by simp [hw'])

/-- Two memories in canonical form that read alike everywhere are equal data. -/
theorem Memory.eq_of_read_eq {m n : Memory} (hm : Memory.wf m = true) (hn : Memory.wf n = true)
    (h : ∀ a, Memory.read m a = Memory.read n a) : m = n := by
  rw [Memory.wf_iff] at hm hn
  induction m generalizing n with
  | nil =>
    cases n with
    | nil => rfl
    | cons d n =>
      have := h d.1
      rw [Memory.read_nil, show d = (d.1, d.2) from rfl, Memory.read_cons, if_pos rfl] at this
      exact absurd this.symm (hn.2 d (by simp)).2
  | cons c m ih =>
    cases n with
    | nil =>
      have := h c.1
      rw [Memory.read_nil, show c = (c.1, c.2) from rfl, Memory.read_cons, if_pos rfl] at this
      exact absurd this (hm.2 c (by simp)).2
    | cons d n =>
      obtain ⟨hmr, hmc⟩ := hm
      obtain ⟨hnr, hnc⟩ := hn
      obtain ⟨hc1, hmr'⟩ := List.pairwise_cons.mp hmr
      obtain ⟨hd1, -⟩ := List.pairwise_cons.mp hnr
      have below_m : ∀ a, a ≤ c.1 → Memory.read m a = unlistedByte := fun a ha =>
        Memory.read_unlisted fun e he => by have := hc1 e he; omega
      have below_n : ∀ a, a ≤ d.1 → Memory.read n a = unlistedByte := fun a ha =>
        Memory.read_unlisted fun e he => by have := hd1 e he; omega
      have hcne := (hmc c (by simp)).2
      have hdne := (hnc d (by simp)).2
      have hread : ∀ a, (if a = c.1 then c.2 else Memory.read m a)
          = if a = d.1 then d.2 else Memory.read n a := h
      have hkey : c.1 = d.1 := by
        rcases Nat.lt_trichotomy c.1 d.1 with hlt | heq | hgt
        · have := hread c.1
          rw [if_pos rfl, if_neg (by omega), below_n _ (by omega)] at this
          exact absurd this hcne
        · exact heq
        · have := hread d.1
          rw [if_neg (by omega), if_pos rfl, below_m _ (by omega)] at this
          exact absurd this.symm hdne
      have hval : c.2 = d.2 := by
        have := hread c.1
        rwa [if_pos rfl, if_pos hkey] at this
      have hcd : c = d := Prod.ext hkey hval
      subst hcd
      congr 1
      refine ih ⟨hmr', fun e he => hmc e (by simp [he])⟩ ⟨(List.pairwise_cons.mp hnr).2, fun e he => hnc e (by simp [he])⟩ ?_
      intro a
      by_cases ha : a = c.1
      · rw [below_m a (by omega), below_n a (by omega)]
      · have := hread a
        rwa [if_neg ha, if_neg ha] at this

end Sys2Proof.Machine
end

