-- ==== Sys2Proof/Laws/Scheme.lean ====
section
/-! SUPPORT. The lengths of everything the commands compute, and the small lemmas of the byte-string
notation they rest on. -/

namespace Sys2Proof.Machine

theorem length_slice (s : Bytes) (i j : Nat) : (slice s i j).length = min (j - i) (s.length - i) := by
  simp [slice]

theorem length_slice_of_le {s : Bytes} {i j : Nat} (h : j ≤ s.length) : (slice s i j).length = j - i := by
  rw [length_slice]
  omega

@[simp] theorem length_xorBytes (a b : Bytes) : (xorBytes a b).length = min a.length b.length := by
  simp [xorBytes]

@[simp] theorem length_pad (n : Nat) : (pad n).length = 32 := by simp [pad]

@[simp] theorem length_prf (P : Config.Params) (k x : Bytes) : (prf P k x).length = 32 := by simp [prf]

@[simp] theorem length_caddrBytes (w : ChainAddr) : (caddrBytes w).length = 32 := by
  simp [caddrBytes, List.length_flatMap]

@[simp] theorem length_chainStepHash (P : Config.Params) (v ps : Bytes) (w : ChainAddr) :
    (chainStepHash P v ps w).length = 32 := by
  simp [chainStepHash]

theorem length_chainLoop (P : Config.Params) (ps : Bytes) (left i : Nat) (v : Bytes) (w : ChainAddr)
    (h : v.length = 32) : (chainLoop P ps left i v w).length = 32 := by
  induction left generalizing i v w with
  | zero => exact h
  | succ left ih =>
    simp only [chainLoop]
    split
    · exact ih _ _ _ (length_chainStepHash _ _ _ _)
    · exact h

theorem length_chain (P : Config.Params) {v : Bytes} (s n : Nat) (ps : Bytes) (w : ChainAddr)
    (h : v.length = 32) : (chain P v s n ps w).length = 32 :=
  length_chainLoop P ps n s v w h

theorem length_expandLoop (P : Config.Params) (seed : Bytes) (fuel left : Nat) (state : Bytes)
    (h : left ≤ fuel) : (expandLoop P seed fuel left state).length = left := by
  induction fuel generalizing left state with
  | zero => simp [expandLoop]; omega
  | succ fuel ih =>
    simp only [expandLoop]
    split
    · simp_all
    · rw [List.length_append, length_slice_of_le (by simp), ih _ _ (by omega)]
      omega

@[simp] theorem length_expand (P : Config.Params) (n : Nat) (seed : Bytes) :
    (expand P n seed).length = n :=
  length_expandLoop P seed n n seed (Nat.le_refl n)

@[simp] theorem length_chainBase (P : Config.Params) (secret : Bytes) (i : Nat) :
    (chainBase P secret i).length = 32 := by
  simp [chainBase]

theorem length_flatMap_const {f : Nat → Bytes} {c : Nat} (n : Nat) (h : ∀ i < n, (f i).length = c) :
    ((List.range n).flatMap f).length = n * c := by
  induction n with
  | zero => simp
  | succ n ih =>
    rw [List.range_succ, List.flatMap_append, List.length_append, ih fun i hi => h i (by omega)]
    simp [h n (by omega), Nat.succ_mul]

@[simp] theorem length_bases (P : Config.Params) (secret : Bytes) : (bases P secret).length = 2144 := by
  rw [bases, length_flatMap_const _ fun i _ => length_chainBase P secret i]
  rfl

theorem length_perChain {f : Nat → Bytes} (h : ∀ i < Config.chains, (f i).length = 32) :
    (perChain f).length = 2144 := by
  rw [perChain, length_flatMap_const _ h]
  rfl

@[simp] theorem length_base16 (b : Bytes) : (base16 b).length = 2 * b.length := by
  induction b with
  | nil => rfl
  | cons x b ih =>
    have : base16 (x :: b) = x.toNat / 16 :: x.toNat % 16 :: base16 b := rfl
    rw [this, List.length_cons, List.length_cons, ih, List.length_cons]
    omega

@[simp] theorem length_cdigits (m : List Nat) : (cdigits m).length = 3 := by
  simp [cdigits, cbytes, Config.len2]

theorem length_encodeDigits {g : Bytes} (h : g.length = 32) : (encodeDigits g).length = 67 := by
  simp [encodeDigits, h]

@[simp] theorem length_digits (P : Config.Params) (msg : Bytes) : (digits P msg).length = 67 :=
  length_encodeDigits (by simp)

@[simp] theorem length_digitBytes (d : List Nat) : (digitBytes d).length = d.length := by
  simp [digitBytes]

@[simp] theorem length_publicMaterial_fst (P : Config.Params) (secret : Bytes) :
    (publicMaterial P secret).1.length = 32 := by
  rw [publicMaterial, length_slice_of_le (by simp [Config.offTag, Config.addrBytes])]
  rfl

@[simp] theorem length_publicMaterial_snd (P : Config.Params) (secret : Bytes) :
    (publicMaterial P secret).2.length = 32 := by
  rw [publicMaterial, length_slice_of_le (by simp)]
  rfl

@[simp] theorem length_keypair_fst (P : Config.Params) (seed : Bytes) :
    (keypair P seed).1.length = 2208 := by
  simp only [keypair, List.length_append, length_publicMaterial_fst, length_publicMaterial_snd]
  rw [length_perChain fun i _ => length_chain _ _ _ _ _ (length_chainBase _ _ _)]

@[simp] theorem length_keypair_snd (P : Config.Params) (seed : Bytes) :
    (keypair P seed).2.length = 32 := by
  simp [keypair]

@[simp] theorem length_signMessage (P : Config.Params) (msg secret : Bytes) :
    (signMessage P msg secret).length = 2144 := by
  simp only [signMessage]
  exact length_perChain fun i _ => length_chain _ _ _ _ _ (length_chainBase _ _ _)

theorem length_pkFromSig (P : Config.Params) {sig : Bytes} (msg ps tag : Bytes) (h : sig.length = 2144) :
    (pkFromSig P sig msg ps tag).length = 2144 := by
  simp only [pkFromSig]
  refine length_perChain fun i hi => length_chain _ _ _ _ _ ?_
  have : i < 67 := hi
  rw [length_slice_of_le (by omega)]
  omega

/-- What verification asks, with the places of an address written out. -/
theorem verifySig_eq_true (P : Config.Params) (sig msg address : Bytes) :
    verifySig P sig msg address = true ↔
      pkFromSig P sig msg (slice address 2144 2176) (slice address 2176 2208) = slice address 0 2144 :=
  decide_eq_true_iff

end Sys2Proof.Machine
end

