-- ==== Sys2Proof/Laws/State.lean ====
section
/-! SUPPORT. The fields of a state after each named update of Machine/Ops.lean and Machine/HostPort.lean: one
lemma per field per update, so that no later proof unfolds a record update. -/

namespace Sys2Proof.Machine

/-! ### After `State.acceptStart` -/

@[simp] theorem State.acceptStart_irqen (s : State) : s.acceptStart.irqen = s.irqen := rfl
@[simp] theorem State.acceptStart_busy (s : State) : s.acceptStart.busy = true := rfl
@[simp] theorem State.acceptStart_done (s : State) : s.acceptStart.done = false := rfl
@[simp] theorem State.acceptStart_err (s : State) : s.acceptStart.err = false := rfl
@[simp] theorem State.acceptStart_result (s : State) : s.acceptStart.result = false := rfl
@[simp] theorem State.acceptStart_wbusy (s : State) : s.acceptStart.wbusy = s.wbusy := rfl
@[simp] theorem State.acceptStart_errcode (s : State) : s.acceptStart.errcode = 0 := rfl
@[simp] theorem State.acceptStart_errarg (s : State) : s.acceptStart.errarg = 0 := rfl
@[simp] theorem State.acceptStart_cmd (s : State) : s.acceptStart.cmd = s.cmd := rfl
@[simp] theorem State.acceptStart_args (s : State) : s.acceptStart.args = s.args := rfl
@[simp] theorem State.acceptStart_wmem (s : State) : s.acceptStart.wmem = s.wmem := rfl
@[simp] theorem State.acceptStart_events (s : State) : s.acceptStart.events = s.events := rfl
@[simp] theorem State.acceptStart_entropy (s : State) : s.acceptStart.entropy = s.entropy := rfl
@[simp] theorem State.acceptStart_response (s : State) : s.acceptStart.response = s.response := rfl
@[simp] theorem State.acceptStart_draws (s : State) : s.acceptStart.draws = s.draws := rfl
@[simp] theorem State.acceptStart_frees (s : State) : s.acceptStart.frees = s.frees := rfl

/-! ### After `State.loseWrite` -/

@[simp] theorem State.loseWrite_irqen (s : State) : s.loseWrite.irqen = s.irqen := rfl
@[simp] theorem State.loseWrite_busy (s : State) : s.loseWrite.busy = s.busy := rfl
@[simp] theorem State.loseWrite_done (s : State) : s.loseWrite.done = s.done := rfl
@[simp] theorem State.loseWrite_err (s : State) : s.loseWrite.err = s.err := rfl
@[simp] theorem State.loseWrite_result (s : State) : s.loseWrite.result = s.result := rfl
@[simp] theorem State.loseWrite_wbusy (s : State) : s.loseWrite.wbusy = true := rfl
@[simp] theorem State.loseWrite_errcode (s : State) : s.loseWrite.errcode = s.errcode := rfl
@[simp] theorem State.loseWrite_errarg (s : State) : s.loseWrite.errarg = s.errarg := rfl
@[simp] theorem State.loseWrite_cmd (s : State) : s.loseWrite.cmd = s.cmd := rfl
@[simp] theorem State.loseWrite_args (s : State) : s.loseWrite.args = s.args := rfl
@[simp] theorem State.loseWrite_wmem (s : State) : s.loseWrite.wmem = s.wmem := rfl
@[simp] theorem State.loseWrite_events (s : State) : s.loseWrite.events = s.events := rfl
@[simp] theorem State.loseWrite_entropy (s : State) : s.loseWrite.entropy = s.entropy := rfl
@[simp] theorem State.loseWrite_response (s : State) : s.loseWrite.response = s.response := rfl
@[simp] theorem State.loseWrite_draws (s : State) : s.loseWrite.draws = s.draws := rfl
@[simp] theorem State.loseWrite_frees (s : State) : s.loseWrite.frees = s.frees := rfl

/-! ### After `State.complete` -/

@[simp] theorem State.complete_irqen (s : State) (r : Bool) : (s.complete r).irqen = s.irqen := rfl
@[simp] theorem State.complete_busy (s : State) (r : Bool) : (s.complete r).busy = false := rfl
@[simp] theorem State.complete_done (s : State) (r : Bool) : (s.complete r).done = true := rfl
@[simp] theorem State.complete_err (s : State) (r : Bool) : (s.complete r).err = false := rfl
@[simp] theorem State.complete_result (s : State) (r : Bool) : (s.complete r).result = r := rfl
@[simp] theorem State.complete_wbusy (s : State) (r : Bool) : (s.complete r).wbusy = s.wbusy := rfl
@[simp] theorem State.complete_errcode (s : State) (r : Bool) : (s.complete r).errcode = 0 := rfl
@[simp] theorem State.complete_errarg (s : State) (r : Bool) : (s.complete r).errarg = 0 := rfl
@[simp] theorem State.complete_cmd (s : State) (r : Bool) : (s.complete r).cmd = s.cmd := rfl
@[simp] theorem State.complete_args (s : State) (r : Bool) : (s.complete r).args = s.args := rfl
@[simp] theorem State.complete_wmem (s : State) (r : Bool) : (s.complete r).wmem = s.wmem := rfl
@[simp] theorem State.complete_events (s : State) (r : Bool) : (s.complete r).events = s.events := rfl
@[simp] theorem State.complete_entropy (s : State) (r : Bool) : (s.complete r).entropy = s.entropy := rfl
@[simp] theorem State.complete_response (s : State) (r : Bool) : (s.complete r).response = s.response := rfl
@[simp] theorem State.complete_draws (s : State) (r : Bool) : (s.complete r).draws = s.draws := rfl
@[simp] theorem State.complete_frees (s : State) (r : Bool) : (s.complete r).frees = s.frees := rfl

/-! ### After `State.raise` -/

@[simp] theorem State.raise_irqen (s : State) (e : CmdError) : (s.raise e).irqen = s.irqen := rfl
@[simp] theorem State.raise_busy (s : State) (e : CmdError) : (s.raise e).busy = false := rfl
@[simp] theorem State.raise_done (s : State) (e : CmdError) : (s.raise e).done = true := rfl
@[simp] theorem State.raise_err (s : State) (e : CmdError) : (s.raise e).err = true := rfl
@[simp] theorem State.raise_result (s : State) (e : CmdError) : (s.raise e).result = false := rfl
@[simp] theorem State.raise_wbusy (s : State) (e : CmdError) : (s.raise e).wbusy = s.wbusy := rfl
@[simp] theorem State.raise_errcode (s : State) (e : CmdError) : (s.raise e).errcode = e.code.toByte := rfl
@[simp] theorem State.raise_errarg (s : State) (e : CmdError) :
    (s.raise e).errarg = BitVec.ofNat 3 e.arg.val := rfl
@[simp] theorem State.raise_cmd (s : State) (e : CmdError) : (s.raise e).cmd = s.cmd := rfl
@[simp] theorem State.raise_args (s : State) (e : CmdError) : (s.raise e).args = s.args := rfl
@[simp] theorem State.raise_wmem (s : State) (e : CmdError) : (s.raise e).wmem = s.wmem := rfl
@[simp] theorem State.raise_events (s : State) (e : CmdError) : (s.raise e).events = s.events := rfl
@[simp] theorem State.raise_entropy (s : State) (e : CmdError) : (s.raise e).entropy = s.entropy := rfl
@[simp] theorem State.raise_response (s : State) (e : CmdError) : (s.raise e).response = s.response := rfl
@[simp] theorem State.raise_draws (s : State) (e : CmdError) : (s.raise e).draws = s.draws := rfl
@[simp] theorem State.raise_frees (s : State) (e : CmdError) : (s.raise e).frees = s.frees := rfl

/-! ### After `State.writeStatus` -/

@[simp] theorem State.writeStatus_irqen (s : State) (v : Word) : (s.writeStatus v).irqen = s.irqen := rfl
@[simp] theorem State.writeStatus_busy (s : State) (v : Word) : (s.writeStatus v).busy = s.busy := rfl
@[simp] theorem State.writeStatus_done (s : State) (v : Word) :
    (s.writeStatus v).done = (s.done && !(v[1] && !s.busy)) := rfl
@[simp] theorem State.writeStatus_err (s : State) (v : Word) : (s.writeStatus v).err = s.err := rfl
@[simp] theorem State.writeStatus_result (s : State) (v : Word) : (s.writeStatus v).result = s.result := rfl
@[simp] theorem State.writeStatus_wbusy (s : State) (v : Word) :
    (s.writeStatus v).wbusy = (s.wbusy && !v[4]) := rfl
@[simp] theorem State.writeStatus_errcode (s : State) (v : Word) :
    (s.writeStatus v).errcode = s.errcode := rfl
@[simp] theorem State.writeStatus_errarg (s : State) (v : Word) : (s.writeStatus v).errarg = s.errarg := rfl
@[simp] theorem State.writeStatus_cmd (s : State) (v : Word) : (s.writeStatus v).cmd = s.cmd := rfl
@[simp] theorem State.writeStatus_args (s : State) (v : Word) : (s.writeStatus v).args = s.args := rfl
@[simp] theorem State.writeStatus_wmem (s : State) (v : Word) : (s.writeStatus v).wmem = s.wmem := rfl
@[simp] theorem State.writeStatus_events (s : State) (v : Word) : (s.writeStatus v).events = s.events := rfl
@[simp] theorem State.writeStatus_entropy (s : State) (v : Word) :
    (s.writeStatus v).entropy = s.entropy := rfl
@[simp] theorem State.writeStatus_response (s : State) (v : Word) :
    (s.writeStatus v).response = s.response := rfl
@[simp] theorem State.writeStatus_draws (s : State) (v : Word) : (s.writeStatus v).draws = s.draws := rfl
@[simp] theorem State.writeStatus_frees (s : State) (v : Word) : (s.writeStatus v).frees = s.frees := rfl

/-! ### After `State.writeOutputs` -/

@[simp] theorem State.writeOutputs_irqen (s : State) (outs : List (Fin 6 × Bytes)) :
    (s.writeOutputs outs).irqen = s.irqen := rfl
@[simp] theorem State.writeOutputs_busy (s : State) (outs : List (Fin 6 × Bytes)) :
    (s.writeOutputs outs).busy = s.busy := rfl
@[simp] theorem State.writeOutputs_done (s : State) (outs : List (Fin 6 × Bytes)) :
    (s.writeOutputs outs).done = s.done := rfl
@[simp] theorem State.writeOutputs_err (s : State) (outs : List (Fin 6 × Bytes)) :
    (s.writeOutputs outs).err = s.err := rfl
@[simp] theorem State.writeOutputs_result (s : State) (outs : List (Fin 6 × Bytes)) :
    (s.writeOutputs outs).result = s.result := rfl
@[simp] theorem State.writeOutputs_wbusy (s : State) (outs : List (Fin 6 × Bytes)) :
    (s.writeOutputs outs).wbusy = s.wbusy := rfl
@[simp] theorem State.writeOutputs_errcode (s : State) (outs : List (Fin 6 × Bytes)) :
    (s.writeOutputs outs).errcode = s.errcode := rfl
@[simp] theorem State.writeOutputs_errarg (s : State) (outs : List (Fin 6 × Bytes)) :
    (s.writeOutputs outs).errarg = s.errarg := rfl
@[simp] theorem State.writeOutputs_cmd (s : State) (outs : List (Fin 6 × Bytes)) :
    (s.writeOutputs outs).cmd = s.cmd := rfl
@[simp] theorem State.writeOutputs_args (s : State) (outs : List (Fin 6 × Bytes)) :
    (s.writeOutputs outs).args = s.args := rfl
@[simp] theorem State.writeOutputs_wmem (s : State) (outs : List (Fin 6 × Bytes)) :
    (s.writeOutputs outs).wmem =
      Memory.writeList s.wmem (outs.map fun o => ((descOf s.args[o.1]).addr, o.2)) := rfl
@[simp] theorem State.writeOutputs_events (s : State) (outs : List (Fin 6 × Bytes)) :
    (s.writeOutputs outs).events = s.events := rfl
@[simp] theorem State.writeOutputs_entropy (s : State) (outs : List (Fin 6 × Bytes)) :
    (s.writeOutputs outs).entropy = s.entropy := rfl
@[simp] theorem State.writeOutputs_response (s : State) (outs : List (Fin 6 × Bytes)) :
    (s.writeOutputs outs).response = s.response := rfl
@[simp] theorem State.writeOutputs_draws (s : State) (outs : List (Fin 6 × Bytes)) :
    (s.writeOutputs outs).draws = s.draws := rfl
@[simp] theorem State.writeOutputs_frees (s : State) (outs : List (Fin 6 × Bytes)) :
    (s.writeOutputs outs).frees = s.frees := rfl

/-! ### After `State.drawn` -/

@[simp] theorem State.drawn_irqen (s : State) : s.drawn.irqen = s.irqen := rfl
@[simp] theorem State.drawn_busy (s : State) : s.drawn.busy = s.busy := rfl
@[simp] theorem State.drawn_done (s : State) : s.drawn.done = s.done := rfl
@[simp] theorem State.drawn_err (s : State) : s.drawn.err = s.err := rfl
@[simp] theorem State.drawn_result (s : State) : s.drawn.result = s.result := rfl
@[simp] theorem State.drawn_wbusy (s : State) : s.drawn.wbusy = s.wbusy := rfl
@[simp] theorem State.drawn_errcode (s : State) : s.drawn.errcode = s.errcode := rfl
@[simp] theorem State.drawn_errarg (s : State) : s.drawn.errarg = s.errarg := rfl
@[simp] theorem State.drawn_cmd (s : State) : s.drawn.cmd = s.cmd := rfl
@[simp] theorem State.drawn_args (s : State) : s.drawn.args = s.args := rfl
@[simp] theorem State.drawn_wmem (s : State) : s.drawn.wmem = s.wmem := rfl
@[simp] theorem State.drawn_events (s : State) : s.drawn.events = s.events := rfl
@[simp] theorem State.drawn_entropy (s : State) : s.drawn.entropy = s.entropy.tail := rfl
@[simp] theorem State.drawn_response (s : State) : s.drawn.response = s.response := rfl
@[simp] theorem State.drawn_draws (s : State) : s.drawn.draws = s.draws + 1 := rfl
@[simp] theorem State.drawn_frees (s : State) : s.drawn.frees = s.frees := rfl

/-! ### After `State.freed` -/

@[simp] theorem State.freed_irqen (s : State) : s.freed.irqen = s.irqen := rfl
@[simp] theorem State.freed_busy (s : State) : s.freed.busy = s.busy := rfl
@[simp] theorem State.freed_done (s : State) : s.freed.done = s.done := rfl
@[simp] theorem State.freed_err (s : State) : s.freed.err = s.err := rfl
@[simp] theorem State.freed_result (s : State) : s.freed.result = s.result := rfl
@[simp] theorem State.freed_wbusy (s : State) : s.freed.wbusy = s.wbusy := rfl
@[simp] theorem State.freed_errcode (s : State) : s.freed.errcode = s.errcode := rfl
@[simp] theorem State.freed_errarg (s : State) : s.freed.errarg = s.errarg := rfl
@[simp] theorem State.freed_cmd (s : State) : s.freed.cmd = s.cmd := rfl
@[simp] theorem State.freed_args (s : State) : s.freed.args = s.args := rfl
@[simp] theorem State.freed_wmem (s : State) : s.freed.wmem = s.wmem := rfl
@[simp] theorem State.freed_events (s : State) : s.freed.events = s.events := rfl
@[simp] theorem State.freed_entropy (s : State) : s.freed.entropy = s.entropy := rfl
@[simp] theorem State.freed_response (s : State) : s.freed.response = s.response := rfl
@[simp] theorem State.freed_draws (s : State) : s.freed.draws = s.draws := rfl
@[simp] theorem State.freed_frees (s : State) : s.freed.frees = s.frees + 1 := rfl

/-! ### After `State.scrambleOutputs` -/

@[simp] theorem State.scrambleOutputs_irqen (P) (s : State) : (s.scrambleOutputs P).irqen = s.irqen := rfl
@[simp] theorem State.scrambleOutputs_busy (P) (s : State) : (s.scrambleOutputs P).busy = s.busy := rfl
@[simp] theorem State.scrambleOutputs_done (P) (s : State) : (s.scrambleOutputs P).done = s.done := rfl
@[simp] theorem State.scrambleOutputs_err (P) (s : State) : (s.scrambleOutputs P).err = s.err := rfl
@[simp] theorem State.scrambleOutputs_result (P) (s : State) : (s.scrambleOutputs P).result = s.result := rfl
@[simp] theorem State.scrambleOutputs_wbusy (P) (s : State) : (s.scrambleOutputs P).wbusy = s.wbusy := rfl
@[simp] theorem State.scrambleOutputs_errcode (P) (s : State) : (s.scrambleOutputs P).errcode = s.errcode := rfl
@[simp] theorem State.scrambleOutputs_errarg (P) (s : State) : (s.scrambleOutputs P).errarg = s.errarg := rfl
@[simp] theorem State.scrambleOutputs_cmd (P) (s : State) : (s.scrambleOutputs P).cmd = s.cmd := rfl
@[simp] theorem State.scrambleOutputs_args (P) (s : State) : (s.scrambleOutputs P).args = s.args := rfl
@[simp] theorem State.scrambleOutputs_wmem (P) (s : State) :
    (s.scrambleOutputs P).wmem =
      Memory.writeList s.wmem ((s.abortedBuffers P).map fun d => (d.addr, s.freeBytes d.addr d.len)) := rfl
@[simp] theorem State.scrambleOutputs_events (P) (s : State) : (s.scrambleOutputs P).events = s.events := rfl
@[simp] theorem State.scrambleOutputs_entropy (P) (s : State) : (s.scrambleOutputs P).entropy = s.entropy := rfl
@[simp] theorem State.scrambleOutputs_response (P) (s : State) : (s.scrambleOutputs P).response = s.response := rfl
@[simp] theorem State.scrambleOutputs_draws (P) (s : State) : (s.scrambleOutputs P).draws = s.draws := rfl
@[simp] theorem State.scrambleOutputs_frees (P) (s : State) : (s.scrambleOutputs P).frees = s.frees := rfl

/-! ### After `State.clearRegisters` -/

@[simp] theorem State.clearRegisters_irqen (s : State) : s.clearRegisters.irqen = false := rfl
@[simp] theorem State.clearRegisters_busy (s : State) : s.clearRegisters.busy = false := rfl
@[simp] theorem State.clearRegisters_done (s : State) : s.clearRegisters.done = false := rfl
@[simp] theorem State.clearRegisters_err (s : State) : s.clearRegisters.err = false := rfl
@[simp] theorem State.clearRegisters_result (s : State) : s.clearRegisters.result = false := rfl
@[simp] theorem State.clearRegisters_wbusy (s : State) : s.clearRegisters.wbusy = false := rfl
@[simp] theorem State.clearRegisters_errcode (s : State) : s.clearRegisters.errcode = 0 := rfl
@[simp] theorem State.clearRegisters_errarg (s : State) : s.clearRegisters.errarg = 0 := rfl
@[simp] theorem State.clearRegisters_cmd (s : State) : s.clearRegisters.cmd = 0 := rfl
@[simp] theorem State.clearRegisters_args (s : State) : s.clearRegisters.args = #v[0, 0, 0, 0, 0, 0] := rfl
@[simp] theorem State.clearRegisters_wmem (s : State) : s.clearRegisters.wmem = s.wmem := rfl
@[simp] theorem State.clearRegisters_events (s : State) : s.clearRegisters.events = s.events := rfl
@[simp] theorem State.clearRegisters_entropy (s : State) : s.clearRegisters.entropy = s.entropy := rfl
@[simp] theorem State.clearRegisters_response (s : State) : s.clearRegisters.response = s.response := rfl
@[simp] theorem State.clearRegisters_draws (s : State) : s.clearRegisters.draws = s.draws := rfl
@[simp] theorem State.clearRegisters_frees (s : State) : s.clearRegisters.frees = s.frees := rfl

/-! ### After `State.answer` -/

@[simp] theorem State.answer_irqen (s : State) (r : Response) : (s.answer r).irqen = s.irqen := rfl
@[simp] theorem State.answer_busy (s : State) (r : Response) : (s.answer r).busy = s.busy := rfl
@[simp] theorem State.answer_done (s : State) (r : Response) : (s.answer r).done = s.done := rfl
@[simp] theorem State.answer_err (s : State) (r : Response) : (s.answer r).err = s.err := rfl
@[simp] theorem State.answer_result (s : State) (r : Response) : (s.answer r).result = s.result := rfl
@[simp] theorem State.answer_wbusy (s : State) (r : Response) : (s.answer r).wbusy = s.wbusy := rfl
@[simp] theorem State.answer_errcode (s : State) (r : Response) : (s.answer r).errcode = s.errcode := rfl
@[simp] theorem State.answer_errarg (s : State) (r : Response) : (s.answer r).errarg = s.errarg := rfl
@[simp] theorem State.answer_cmd (s : State) (r : Response) : (s.answer r).cmd = s.cmd := rfl
@[simp] theorem State.answer_args (s : State) (r : Response) : (s.answer r).args = s.args := rfl
@[simp] theorem State.answer_wmem (s : State) (r : Response) : (s.answer r).wmem = s.wmem := rfl
@[simp] theorem State.answer_events (s : State) (r : Response) : (s.answer r).events = s.events := rfl
@[simp] theorem State.answer_entropy (s : State) (r : Response) : (s.answer r).entropy = s.entropy := rfl
@[simp] theorem State.answer_response (s : State) (r : Response) : (s.answer r).response = r := rfl
@[simp] theorem State.answer_draws (s : State) (r : Response) : (s.answer r).draws = s.draws := rfl
@[simp] theorem State.answer_frees (s : State) (r : Response) : (s.answer r).frees = s.frees := rfl

end Sys2Proof.Machine
end

