-- ==== Sys2Proof/Laws/Exec.lean ====
section
/-! SUPPORT. What the operand checks say and what a command can do, each said once: a command either ends
in the first failing check's error, or finishes with outputs of the lengths its descriptors name, or (GENR
only) ends in the error ENTROPY. -/

namespace Sys2Proof.Machine

/-! ### The operand checks -/

theorem checkDesc_eq_none (k : Fin 6) (f : Option Nat) (d : Desc) :
    checkDesc hw k f d = none ↔ lengthOk f d = true ∧ boundsOk hw d = true := by
  simp only [checkDesc]
  split
  · simp_all
  · split <;> simp_all

/-- The checks all pass exactly when each ARG's does. -/
theorem checkOperands_eq_none (i : Instr) (args : Vector Word 6) :
    checkOperands hw i args = none ↔ ∀ k, checkOperand hw i args k = none := by
  simp only [checkOperands, List.findSome?_eq_none_iff]
  constructor
  · intro h k
    exact h k (by fin_cases k <;> simp)
  · intro h k _
    exact h k

/-- An output descriptor that passed its check: its length is the fixed one, and its buffer is inside
WMEM. -/
theorem output_of_checkOperands {i : Instr} {args : Vector Word 6} (h : checkOperands hw i args = none)
    {k : Fin 6} {f : Option Nat} (hk : (operandRoles i)[k] = .output f) :
    lengthOk f (descOf args[k]) = true
      ∧ (descOf args[k]).addr + (descOf args[k]).len ≤ hw.wmemBytes := by
  have := (checkOperands_eq_none i args).mp h k
  simp only [checkOperand, hk] at this
  obtain ⟨h1, h2⟩ := (checkDesc_eq_none _ _ _).mp this
  exact ⟨h1, of_decide_eq_true h2⟩

/-- An input descriptor that passed its check. -/
theorem input_of_checkOperands {i : Instr} {args : Vector Word 6} (h : checkOperands hw i args = none)
    {k : Fin 6} {f : Option Nat} (hk : (operandRoles i)[k] = .input f) :
    lengthOk f (descOf args[k]) = true
      ∧ (descOf args[k]).addr + (descOf args[k]).len ≤ hw.wmemBytes := by
  have := (checkOperands_eq_none i args).mp h k
  simp only [checkOperand, hk] at this
  obtain ⟨h1, h2⟩ := (checkDesc_eq_none _ _ _).mp this
  exact ⟨h1, of_decide_eq_true h2⟩

@[simp] theorem length_input (s : State) (k : Fin 6) : (s.input k).length = (descOf s.args[k]).len := by
  simp [State.input]

/-- A command whose checks fail ends in that error. -/
theorem checked_of_some {i : Instr} {s : State} {e : CmdError} (h : checkOperands hw i s.args = some e)
    (body : State → State) : checked hw i s body = .next (s.raise e) := by
  simp [checked, h]

/-- A command whose checks pass runs its body. -/
theorem checked_of_none {i : Instr} {s : State} (h : checkOperands hw i s.args = none)
    (body : State → State) : checked hw i s body = .next (body s) := by
  simp [checked, h]

/-! ### Each command once its checks pass -/

theorem exec_nop_of_check_none {s : State} (h : checkOperands hw .nop s.args = none) :
    exec .nop s = .next (s.finish [] false) := by
  rw [exec, execNop, checked_of_none h]

theorem exec_prf_of_check_none {s : State} (h : checkOperands hw .prf s.args = none) :
    exec .prf s = .next (s.finish [(2, prf hw (s.input 0) (s.input 1))] false) := by
  rw [exec, execPrf, checked_of_none h]

theorem exec_fstep_of_check_none {s : State} (h : checkOperands hw .fstep s.args = none) :
    exec .fstep s = .next (s.finish
        [(3, chainStepHash hw (s.input 0) (s.input 1) (loadCaddr hw (s.input 2)))] false) := by
  rw [exec, execFstep, checked_of_none h]

theorem exec_expand_of_check_none {s : State} (h : checkOperands hw .expand s.args = none) :
    exec .expand s = .next (s.finish [(1, expand hw (descOf s.args[1]).len (s.input 0))] false) := by
  rw [exec, execExpand, checked_of_none h]

theorem exec_expbases_of_check_none {s : State} (h : checkOperands hw .expbases s.args = none) :
    exec .expbases s = .next (s.finish [(1, bases hw (s.input 0))] false) := by
  rw [exec, execExpbases, checked_of_none h]

theorem exec_chain_of_check_none {start steps : Nat} {s : State} (h : checkOperands hw (.chain start steps) s.args = none) :
    exec (.chain start steps) s = .next (s.finish [(4, chain hw (s.input 0) start steps (s.input 1)
        (chainAddrOf hw (s.input 2) s.args[3]))] false) := by
  rw [exec, execChain, checked_of_none h]

theorem exec_hmsg_of_check_none {s : State} (h : checkOperands hw .hmsg s.args = none) :
    exec .hmsg s = .next (s.finish [(1, (hw.h32 (s.input 0)).toList)] false) := by
  rw [exec, execHmsg, checked_of_none h]

theorem exec_encode_of_check_none {s : State} (h : checkOperands hw .encode s.args = none) :
    exec .encode s = .next (s.finish [(1, digitBytes (encodeDigits (s.input 0)))] false) := by
  rw [exec, execEncode, checked_of_none h]

theorem exec_encmsg_of_check_none {s : State} (h : checkOperands hw .encmsg s.args = none) :
    exec .encmsg s = .next (s.finish [(1, digitBytes (digits hw (s.input 0)))] false) := by
  rw [exec, execEncmsg, checked_of_none h]

theorem exec_gen_of_check_none {s : State} (h : checkOperands hw .gen s.args = none) :
    exec .gen s = .next (s.finish
        [(1, (keypair hw (s.input 0)).1), (2, (keypair hw (s.input 0)).2)] false) := by
  rw [exec, execGen, checked_of_none h]

theorem exec_sign_of_check_none {s : State} (h : checkOperands hw .sign s.args = none) :
    exec .sign s = .next (s.finish [(2, signMessage hw (s.input 0) (s.input 1))] false) := by
  rw [exec, execSign, checked_of_none h]

theorem exec_pksig_of_check_none {s : State} (h : checkOperands hw .pksig s.args = none) :
    exec .pksig s = .next (s.finish
        [(4, pkFromSig hw (s.input 0) (s.input 1) (s.input 2) (s.input 3))] false) := by
  rw [exec, execPksig, checked_of_none h]

theorem exec_verify_of_check_none {s : State} (h : checkOperands hw .verify s.args = none) :
    exec .verify s = .next (s.finish []
        (verifySig hw (s.input 0) (s.input 1) (s.input 2))) := by
  rw [exec, execVerify, checked_of_none h]

theorem exec_genr_of_draw {s : State} {e : Vector Byte 32} (h : checkOperands hw .genr s.args = none)
    (hd : s.entropyDraw = some e) :
    exec .genr s = .next (s.drawn.finish
        [(0, (keypair hw e.toList).1), (1, (keypair hw e.toList).2)] false) := by
  rw [exec, execGenr, checked_of_none h, hd]

theorem exec_genr_of_fail {s : State} (h : checkOperands hw .genr s.args = none)
    (hd : s.entropyDraw = none) : exec .genr s = .next (s.drawn.raise ⟨.entropy, 0⟩) := by
  rw [exec, execGenr, checked_of_none h, hd]

/-! ### What a command can do -/

/-- The outputs a command writes: each belongs to an output operand and is as long as its descriptor
says. -/
def outputsMatch (i : Instr) (args : Vector Word 6) (outs : List (Fin 6 × Bytes)) : Prop :=
  ∀ o ∈ outs, ∃ f, (operandRoles i)[o.1] = .output f ∧ o.2.length = (descOf args[o.1]).len

/-- A failed check, of any command. -/
theorem exec_of_check_some {i : Instr} {s : State} {e : CmdError}
    (h : checkOperands hw i s.args = some e) : exec i s = .next (s.raise e) := by
  cases i <;>
    simp only [exec, execNop, execPrf, execFstep, execExpand, execExpbases, execChain, execHmsg, execEncode,
      execEncmsg, execGen, execGenr, execSign, execPksig, execVerify, checked_of_some h]

/-- The state a command starts its body in, as far as the entropy source goes: GENR has made its draw. -/
def afterDraw (i : Instr) (s : State) : State :=
  match i with
  | .genr => s.drawn
  | .nop | .prf | .fstep | .expand | .expbases | .chain _ _ | .hmsg | .encode | .encmsg
  | .gen | .sign | .pksig | .verify => s

/-- What a command can do once its checks pass. -/
theorem exec_of_check_none {i : Instr} {s : State} (h : checkOperands hw i s.args = none) :
    (∃ outs r, exec i s = .next ((afterDraw i s).finish outs r) ∧ outputsMatch i s.args outs
        ∧ (r = true → i = .verify))
      ∨ (i = .genr ∧ s.entropyDraw = none ∧ exec i s = .next (s.drawn.raise ⟨.entropy, 0⟩)) := by
  have hout : ∀ {k : Fin 6} {n : Nat}, (operandRoles i)[k] = .output (some n) →
      (descOf s.args[k]).len = n := fun hk => of_decide_eq_true (output_of_checkOperands h hk).1
  have hin : ∀ {k : Fin 6} {n : Nat}, (operandRoles i)[k] = .input (some n) →
      (descOf s.args[k]).len = n := fun hk => of_decide_eq_true (input_of_checkOperands h hk).1
  cases i with
  | nop =>
    exact .inl ⟨_, _, exec_nop_of_check_none h, by simp [outputsMatch], by simp⟩
  | prf =>
    refine .inl ⟨_, _, exec_prf_of_check_none h, ?_, by simp⟩
    intro o ho
    obtain rfl := List.mem_singleton.mp ho
    exact ⟨_, rfl, by rw [hout (k := 2) rfl, length_prf]⟩
  | fstep =>
    refine .inl ⟨_, _, exec_fstep_of_check_none h, ?_, by simp⟩
    intro o ho
    obtain rfl := List.mem_singleton.mp ho
    exact ⟨_, rfl, by rw [hout (k := 3) rfl, length_chainStepHash]⟩
  | expand =>
    refine .inl ⟨_, _, exec_expand_of_check_none h, ?_, by simp⟩
    intro o ho
    obtain rfl := List.mem_singleton.mp ho
    exact ⟨_, rfl, length_expand _ _ _⟩
  | expbases =>
    refine .inl ⟨_, _, exec_expbases_of_check_none h, ?_, by simp⟩
    intro o ho
    obtain rfl := List.mem_singleton.mp ho
    exact ⟨_, rfl, by rw [hout (k := 1) rfl, length_bases]⟩
  | chain start steps =>
    refine .inl ⟨_, _, exec_chain_of_check_none h, ?_, by simp⟩
    intro o ho
    obtain rfl := List.mem_singleton.mp ho
    refine ⟨_, rfl, ?_⟩
    rw [hout (k := 4) rfl]
    exact length_chain _ _ _ _ _ (by rw [length_input]; exact hin (k := 0) rfl)
  | hmsg =>
    refine .inl ⟨_, _, exec_hmsg_of_check_none h, ?_, by simp⟩
    intro o ho
    obtain rfl := List.mem_singleton.mp ho
    exact ⟨_, rfl, by rw [hout (k := 1) rfl]; simp⟩
  | encode =>
    refine .inl ⟨_, _, exec_encode_of_check_none h, ?_, by simp⟩
    intro o ho
    obtain rfl := List.mem_singleton.mp ho
    refine ⟨_, rfl, ?_⟩
    rw [hout (k := 1) rfl, length_digitBytes]
    exact length_encodeDigits (by rw [length_input]; exact hin (k := 0) rfl)
  | encmsg =>
    refine .inl ⟨_, _, exec_encmsg_of_check_none h, ?_, by simp⟩
    intro o ho
    obtain rfl := List.mem_singleton.mp ho
    exact ⟨_, rfl, by rw [hout (k := 1) rfl, length_digitBytes, length_digits]⟩
  | gen =>
    refine .inl ⟨_, _, exec_gen_of_check_none h, ?_, by simp⟩
    intro o ho
    rcases List.mem_cons.mp ho with rfl | ho
    · exact ⟨_, rfl, by rw [hout (k := 1) rfl, length_keypair_fst]⟩
    · obtain rfl := List.mem_singleton.mp ho
      exact ⟨_, rfl, by rw [hout (k := 2) rfl, length_keypair_snd]⟩
  | genr =>
    cases hd : s.entropyDraw with
    | none =>
      refine .inr ⟨rfl, rfl, ?_⟩
      exact exec_genr_of_fail h hd
    | some e =>
      refine .inl ⟨_, _, exec_genr_of_draw h hd, ?_, by simp⟩
      intro o ho
      rcases List.mem_cons.mp ho with rfl | ho
      · exact ⟨_, rfl, by rw [hout (k := 0) rfl, length_keypair_fst]⟩
      · obtain rfl := List.mem_singleton.mp ho
        exact ⟨_, rfl, by rw [hout (k := 1) rfl, length_keypair_snd]⟩
  | sign =>
    refine .inl ⟨_, _, exec_sign_of_check_none h, ?_, by simp⟩
    intro o ho
    obtain rfl := List.mem_singleton.mp ho
    exact ⟨_, rfl, by rw [hout (k := 2) rfl, length_signMessage]⟩
  | pksig =>
    refine .inl ⟨_, _, exec_pksig_of_check_none h, ?_, by simp⟩
    intro o ho
    obtain rfl := List.mem_singleton.mp ho
    have hsig : (s.input 0).length = 2144 := (length_input s 0).trans (hin (k := 0) rfl)
    have hpk := length_pkFromSig hw (s.input 1) (s.input 2) (s.input 3) hsig
    have hlen : (descOf s.args[(4 : Fin 6)]).len = 2144 := hout (k := 4) rfl
    refine ⟨_, rfl, ?_⟩
    rw [hlen, hpk]
  | verify =>
    exact .inl ⟨_, _, exec_verify_of_check_none h, by simp [outputsMatch], by simp⟩

end Sys2Proof.Machine
end

