-- ==== Sys2Proof/Laws/HostPort.lean ====
section
/-! SUPPORT. What one host access does, said once for each of its three outcomes (a register, the WMEM window,
a bus error), and what the engine's turn is, whether it is due or the next event. -/

namespace Sys2Proof.Machine

/-! ### Which accesses the block takes -/

theorem takenBytes_eq_some (off : Nat) (width : Width) (n : Nat) :
    takenBytes off width = some n ↔
      width.bytes = some n ∧ off % n = 0 ∧ (wmemWindow ≤ off ∨ width = .word) := by
  unfold takenBytes
  cases width.bytes with
  | none => simp
  | some m =>
    simp only [Option.ite_none_right_eq_some, Option.some.injEq]
    constructor
    · rintro ⟨h, rfl⟩
      exact ⟨rfl, h⟩
    · rintro ⟨rfl, h⟩
      exact ⟨h, rfl⟩

/-- In the WMEM window every aligned access of 8, 16 or 32 bits is taken. -/
theorem takenBytes_of_window {off : Nat} {width : Width} {n : Nat} (hw : wmemWindow ≤ off)
    (hb : width.bytes = some n) (ha : off % n = 0) : takenBytes off width = some n :=
  (takenBytes_eq_some off width n).mpr ⟨hb, ha, .inl hw⟩

/-- A 32-bit access at a multiple of 4 is taken in both windows. -/
theorem takenBytes_word {off : Nat} (ha : off % 4 = 0) : takenBytes off .word = some 4 :=
  (takenBytes_eq_some off .word 4).mpr ⟨rfl, ha, .inr rfl⟩

theorem takenBytes_eq_none (off : Nat) (width : Width) :
    takenBytes off width = none ↔
      width = .other ∨ (∃ n, width.bytes = some n ∧ off % n ≠ 0) ∨ (off < wmemWindow ∧ width ≠ .word) := by
  cases width <;> simp [takenBytes, Width.bytes] <;> omega

/-! ### The outcomes of an access -/

section
variable {P : Config.Params} {s : State} {off : BitVec 17} {width : Width} {n : Nat}

theorem access_read_register (ha : off.toNat % 4 = 0) (hr : off.toNat < wmemWindow) :
    s.access P (.read off .word) = s.answer (.data (s.readReg P (regAt off.toNat))) := by
  simp [State.access, takenBytes_word ha, Nat.not_le.mpr hr]

theorem access_write_register (v : Word) (ha : off.toNat % 4 = 0) (hr : off.toNat < wmemWindow) :
    s.access P (.write off .word v) = (s.writeReg P (regAt off.toNat) v).answer .written := by
  simp [State.access, takenBytes_word ha, Nat.not_le.mpr hr]

theorem access_read_window (hw : wmemWindow ≤ off.toNat) (hb : width.bytes = some n)
    (ha : off.toNat % n = 0) :
    s.access P (.read off width) = (s.afterReadWindow P (off.toNat - wmemWindow)).answer
      (.data (s.readWindow P (off.toNat - wmemWindow) n)) := by
  simp [State.access, takenBytes_of_window hw hb ha, hw]

theorem access_write_window (v : Word) (hw : wmemWindow ≤ off.toNat) (hb : width.bytes = some n)
    (ha : off.toNat % n = 0) :
    s.access P (.write off width v) =
      (s.writeWindow P (off.toNat - wmemWindow) n v).answer .written := by
  simp [State.access, takenBytes_of_window hw hb ha, hw]

theorem access_read_not_taken (h : takenBytes off.toNat width = none) :
    s.access P (.read off width) = s.answer .busError := by
  simp [State.access, h]

theorem access_write_not_taken (v : Word) (h : takenBytes off.toNat width = none) :
    s.access P (.write off width v) = s.answer .busError := by
  simp [State.access, h]

end

/-! ### The WMEM window: past its end, while busy, while idle -/

section
variable {P : Config.Params} {s : State} {a : Nat}

theorem readWindow_past (n : Nat) (h : P.wmemBytes ≤ a) : s.readWindow P a n = 0 := if_pos h

theorem readWindow_busy (n : Nat) (h : a < P.wmemBytes) (hb : s.busy = true) :
    s.readWindow P a n = BitVec.ofNat 32 (fromLE (s.freeBytes a n)) := by
  simp [State.readWindow, Nat.not_le.mpr h, hb]

theorem readWindow_idle (n : Nat) (h : a < P.wmemBytes) (hb : s.busy = false) :
    s.readWindow P a n = BitVec.ofNat 32 (fromLE (Memory.readBytes s.wmem a n)) := by
  simp [State.readWindow, Nat.not_le.mpr h, hb]

theorem afterReadWindow_past (h : P.wmemBytes ≤ a) : s.afterReadWindow P a = s := by
  simp [State.afterReadWindow, Nat.not_lt.mpr h]

theorem afterReadWindow_busy (h : a < P.wmemBytes) (hb : s.busy = true) :
    s.afterReadWindow P a = s.freed := by
  simp [State.afterReadWindow, h, hb]

theorem afterReadWindow_idle (hb : s.busy = false) : s.afterReadWindow P a = s := by
  simp [State.afterReadWindow, hb]

theorem writeWindow_past (n : Nat) (v : Word) (h : P.wmemBytes ≤ a) : s.writeWindow P a n v = s :=
  if_pos h

theorem writeWindow_busy (n : Nat) (v : Word) (h : a < P.wmemBytes) (hb : s.busy = true) :
    s.writeWindow P a n v = s.loseWrite := by
  simp [State.writeWindow, Nat.not_le.mpr h, hb]

theorem writeWindow_idle (n : Nat) (v : Word) (h : a < P.wmemBytes) (hb : s.busy = false) :
    s.writeWindow P a n v = { s with wmem := Memory.writeBytes s.wmem a (toLE v.toNat n) } := by
  simp [State.writeWindow, Nat.not_le.mpr h, hb]

end

/-! ### The size of WMEM -/

/-- Every size of WMEM fits the window, and is at least 8192 bytes. -/
theorem wmemBytes_bounds (P : Config.Params) : 8192 ≤ P.wmemBytes ∧ P.wmemBytes ≤ 65536 := by
  unfold Config.Params.wmemBytes
  cases P.wmemSize <;> decide

theorem wmemBytes_hw : hw.wmemBytes = 65536 := rfl

/-! ### The step -/

/-- The step of a host access. -/
theorem step_access {s : State} {a : Access} {rest : List Event} (h : s.events = .access a :: rest) :
    step s = .next (({ s with events := rest } : State).access hw a) := by
  simp [step, h, eventStep]

/-- The engine's turn performs the command in flight. -/
theorem step_of_engineNext {s : State} (h : engineNext s) :
    step s = perform { s with events := s.events.tail } := by
  obtain ⟨hb, he | ⟨rest, he⟩⟩ := h
  · have hs : { s with events := s.events.tail } = s := by
      rw [he]
      exact congrArg (fun e => { s with events := e }) he.symm
    rw [hs]
    simp [step, he, engineTurn, hb]
  · simp [step, he, eventStep, engineTurn, hb]

end Sys2Proof.Machine
end

