-- ==== Sys2Proof/Laws/PerInstr.lean ====
section
/-! SUPPORT. Facts about every command as syntax, one lemma per constructor. `OpcodeByte`: the low byte of a
command's word is its opcode (30_encoding.md R71, R72). `OutputsAfterInputs`: in the operand table no input
stands after an output (R75), so a command's outputs are its last operands. -/

namespace Sys2Proof.Laws

/-- The low byte of the encoding of a command is its opcode. -/
def OpcodeByte.Statement (i : Instr) : Prop := (encode i).extractLsb' 0 8 = i.opcode

/-- An output operand is followed by no input operand. -/
def OutputsAfterInputs.Statement (i : Instr) : Prop :=
  ∀ j k : Fin 6, j < k → ∀ f g, (Machine.operandRoles i)[j] = .output f →
    (Machine.operandRoles i)[k] ≠ .input g

theorem OpcodeByte.nop : OpcodeByte.Statement .nop := by
  unfold OpcodeByte.Statement
  decide

theorem OpcodeByte.prf : OpcodeByte.Statement .prf := by
  unfold OpcodeByte.Statement
  decide

theorem OpcodeByte.fstep : OpcodeByte.Statement .fstep := by
  unfold OpcodeByte.Statement
  decide

theorem OpcodeByte.expand : OpcodeByte.Statement .expand := by
  unfold OpcodeByte.Statement
  decide

theorem OpcodeByte.expbases : OpcodeByte.Statement .expbases := by
  unfold OpcodeByte.Statement
  decide

theorem OpcodeByte.chain (start steps : Nat) : OpcodeByte.Statement (.chain start steps) := by
  unfold OpcodeByte.Statement Sys2Proof.encode
  apply BitVec.eq_of_toNat_eq
  simp [Instr.opcode]
  omega

theorem OpcodeByte.hmsg : OpcodeByte.Statement .hmsg := by
  unfold OpcodeByte.Statement
  decide

theorem OpcodeByte.encode : OpcodeByte.Statement .encode := by
  unfold OpcodeByte.Statement
  decide

theorem OpcodeByte.encmsg : OpcodeByte.Statement .encmsg := by
  unfold OpcodeByte.Statement
  decide

theorem OpcodeByte.gen : OpcodeByte.Statement .gen := by
  unfold OpcodeByte.Statement
  decide

theorem OpcodeByte.genr : OpcodeByte.Statement .genr := by
  unfold OpcodeByte.Statement
  decide

theorem OpcodeByte.sign : OpcodeByte.Statement .sign := by
  unfold OpcodeByte.Statement
  decide

theorem OpcodeByte.pksig : OpcodeByte.Statement .pksig := by
  unfold OpcodeByte.Statement
  decide

theorem OpcodeByte.verify : OpcodeByte.Statement .verify := by
  unfold OpcodeByte.Statement
  decide

theorem OutputsAfterInputs.nop : OutputsAfterInputs.Statement .nop := by
  intro j k h f g hj
  fin_cases j <;> fin_cases k <;> simp_all [Machine.operandRoles]

theorem OutputsAfterInputs.prf : OutputsAfterInputs.Statement .prf := by
  intro j k h f g hj
  fin_cases j <;> fin_cases k <;> simp_all [Machine.operandRoles]

theorem OutputsAfterInputs.fstep : OutputsAfterInputs.Statement .fstep := by
  intro j k h f g hj
  fin_cases j <;> fin_cases k <;> simp_all [Machine.operandRoles]

theorem OutputsAfterInputs.expand : OutputsAfterInputs.Statement .expand := by
  intro j k h f g hj
  fin_cases j <;> fin_cases k <;> simp_all [Machine.operandRoles]

theorem OutputsAfterInputs.expbases : OutputsAfterInputs.Statement .expbases := by
  intro j k h f g hj
  fin_cases j <;> fin_cases k <;> simp_all [Machine.operandRoles]

theorem OutputsAfterInputs.chain (start steps : Nat) : OutputsAfterInputs.Statement (.chain start steps) := by
  intro j k h f g hj
  fin_cases j <;> fin_cases k <;> simp_all [Machine.operandRoles]

theorem OutputsAfterInputs.hmsg : OutputsAfterInputs.Statement .hmsg := by
  intro j k h f g hj
  fin_cases j <;> fin_cases k <;> simp_all [Machine.operandRoles]

theorem OutputsAfterInputs.encode : OutputsAfterInputs.Statement .encode := by
  intro j k h f g hj
  fin_cases j <;> fin_cases k <;> simp_all [Machine.operandRoles]

theorem OutputsAfterInputs.encmsg : OutputsAfterInputs.Statement .encmsg := by
  intro j k h f g hj
  fin_cases j <;> fin_cases k <;> simp_all [Machine.operandRoles]

theorem OutputsAfterInputs.gen : OutputsAfterInputs.Statement .gen := by
  intro j k h f g hj
  fin_cases j <;> fin_cases k <;> simp_all [Machine.operandRoles]

theorem OutputsAfterInputs.genr : OutputsAfterInputs.Statement .genr := by
  intro j k h f g hj
  fin_cases j <;> fin_cases k <;> simp_all [Machine.operandRoles]

theorem OutputsAfterInputs.sign : OutputsAfterInputs.Statement .sign := by
  intro j k h f g hj
  fin_cases j <;> fin_cases k <;> simp_all [Machine.operandRoles]

theorem OutputsAfterInputs.pksig : OutputsAfterInputs.Statement .pksig := by
  intro j k h f g hj
  fin_cases j <;> fin_cases k <;> simp_all [Machine.operandRoles]

theorem OutputsAfterInputs.verify : OutputsAfterInputs.Statement .verify := by
  intro j k h f g hj
  fin_cases j <;> fin_cases k <;> simp_all [Machine.operandRoles]

end Sys2Proof.Laws
end

