-- ==== Sys2Proof/Machine/Assembler.lean ====
section
/-! DEFINITION. The spec's assembler (30_encoding.md R80, R81): the host accesses a command line, a
directive or a pseudo-instruction stands for. A host program is a list of these events. -/

namespace Sys2Proof.Machine

/-- An operand as a source line writes it (R80). -/
inductive AsmOperand where
  /-- `[addr, len]` -/
  | buffer (addr len : Nat)
  /-- `#value` -/
  | int (value : Nat)
deriving DecidableEq, Repr

/-- The ARG value an operand assembles to (R80). -/
def AsmOperand.word : AsmOperand → Word
  | .buffer addr len => BitVec.ofNat 32 ((len <<< 16) ||| addr)
  | .int value => BitVec.ofNat 32 value

/-- A 32-bit host write to a register. -/
def hostWrite (off : BitVec 17) (v : Word) : Event := .access (.write off .word v)

/-- A 32-bit host read of STATUS. -/
def readStatus : Event := .access (.read 0x00C .word)

/-- The offset of ARGk (R27). -/
def argOffset (k : Fin 6) : BitVec 17 := BitVec.ofNat 17 (0x014 + 4 * k.val)

/-- The value a command line writes to ARGk: 0 where the opcode ignores it (R80). -/
def argValue (i : Instr) (ops : List AsmOperand) (k : Fin 6) : Word :=
  match (operandRoles i)[k] with
  | .ignored => 0
  | .integer => (ops.getD k.val (.int 0)).word
  | .input _ => (ops.getD k.val (.int 0)).word
  | .output _ => (ops.getD k.val (.int 0)).word

/-- CTRL with START set and IRQEN as given: 1 | (IRQEN << 2) (R80). -/
def startWord (irqen : Bool) : Word := BitVec.ofNat 32 (1 + irqen.toNat * 2 ^ 2)

/-- A command line (R80), operands in ARG order: the six ARG writes, CMD, CTRL.START, the engine's turn
that ends BUSY, and the STATUS read that sees it. -/
def commandLine (irqen : Bool) (i : Instr) (ops : List AsmOperand) : List Event :=
  ([(0 : Fin 6), 1, 2, 3, 4, 5].map fun k => hostWrite (argOffset k) (argValue i ops k))
    ++ [hostWrite 0x010 (encode i), hostWrite 0x008 (startWord irqen), .engine, readStatus]

/-- `.wmem addr, hexbytes`: byte writes to WMEM from `addr` (R80). -/
def wmemDirective (addr : Nat) : Bytes → List Event
  | [] => []
  | b :: v => .access (.write (BitVec.ofNat 17 (0x10000 + addr)) .byte (b.zeroExtend 32))
      :: wmemDirective (addr + 1) v

/-- `.irqen b`: CTRL written with b << 2 (R80). -/
def irqenDirective (b : Bool) : Event :=
  hostWrite 0x008 (BitVec.ofNat 32 (b.toNat * 2 ^ 2))

/-- `FCHAIN v, ps, tag, idx, out` (R81). -/
def fchain (ops : List AsmOperand) : Instr × List AsmOperand := (.chain 0 15, ops)

/-- `SCHAIN d, v, ps, tag, idx, out` (R81). -/
def schain (d : Nat) (ops : List AsmOperand) : Instr × List AsmOperand := (.chain 0 d, ops)

/-- `CCHAIN d, v, ps, tag, idx, out`, d in 0..15 (R81). -/
def cchain (d : Nat) (ops : List AsmOperand) : Instr × List AsmOperand := (.chain d (15 - d), ops)

/-- `SECRET seed, out`: EXPAND to 32 bytes (R81). -/
def secret (seed : AsmOperand) (outAddr : Nat) : Instr × List AsmOperand :=
  (.expand, [seed, .buffer outAddr 32])

/-- `CLRDONE` (R81). -/
def clrdone : Event := hostWrite 0x00C 0x00000002

/-- `CLRWBUSY` (R81). -/
def clrwbusy : Event := hostWrite 0x00C 0x00000010

/-- `SRST` (R81). -/
def srst : Event := hostWrite 0x008 0x00000002

end Sys2Proof.Machine
end

