-- ==== Sys2Proof/Tests/Slice0.lean ====
section
/-! SUPPORT. The model's own tests: the well-formedness checks, a word for every constructor, single steps
whose results stand in spec/95_test_vectors.md (V, X and E numbers), and, for every statement that has
hypotheses, a concrete state that meets them (the theorems named witness). -/

namespace Sys2Proof.Tests

open Sys2Proof Sys2Proof.Machine

/-! ### Helpers -/

/-- A block with a command in flight. -/
def inFlight (cmd : Word) (args : Vector Word 6) (mem : Memory) : State :=
  { State.reset with cmd := cmd, args := args, wmem := mem, busy := true }

/-- An idle block whose next event is a host access. -/
def accessed (s : State) (a : Access) : State := { s with events := [.access a] }

/-- What a step answers, looked at through `f`. -/
def after {α : Type} (s : State) (f : State → α) : Option α :=
  match step s with
  | .next t => some (f t)
  | .fault _ => none
  | .refused _ => none

/-- The message "abc" at address 0. -/
def abc : Memory := Memory.writeBytes [] 0 [0x61, 0x62, 0x63]

/-- An error state whose STATUS is 0x00000306. -/
def afterLengthError : State := { State.reset with done := true, err := true, errcode := 0x03 }

/-! ### Well-formedness -/

theorem test_chain_start_32_is_ill_formed : (Instr.chain 32 0).wellFormed = false := by decide
theorem test_chain_steps_32_is_ill_formed : (Instr.chain 0 32).wellFormed = false := by decide
theorem test_chain_31_31_is_well_formed : (Instr.chain 31 31).wellFormed = true := by decide

/-! ### Words written out from the encodings of R71, R72 and R77 -/

theorem test_decode_nop : decode 0b00000000000000000000000000000000 = .ok .nop := by decide
theorem test_decode_prf : decode 0b00000000000000000000000000000001 = .ok .prf := by decide
theorem test_decode_fstep : decode 0b00000000000000000000000000000010 = .ok .fstep := by decide
theorem test_decode_expand : decode 0b00000000000000000000000000010000 = .ok .expand := by decide
theorem test_decode_expbases : decode 0b00000000000000000000000000010001 = .ok .expbases := by decide
theorem test_decode_chain : decode 0b00000000000001000000101100100000 = .ok (.chain 11 4) := by decide
theorem test_decode_hmsg : decode 0b00000000000000000000000000110000 = .ok .hmsg := by decide
theorem test_decode_encode : decode 0b00000000000000000000000000110001 = .ok .encode := by decide
theorem test_decode_encmsg : decode 0b00000000000000000000000000110010 = .ok .encmsg := by decide
theorem test_decode_gen : decode 0b00000000000000000000000001000000 = .ok .gen := by decide
theorem test_decode_genr : decode 0b00000000000000000000000001000001 = .ok .genr := by decide
theorem test_decode_sign : decode 0b00000000000000000000000001000010 = .ok .sign := by decide
theorem test_decode_pksig : decode 0b00000000000000000000000001000011 = .ok .pksig := by decide
theorem test_decode_verify : decode 0b00000000000000000000000001000100 = .ok .verify := by decide

/-- X1, X2: an undefined opcode is ILLOP whatever the other bits. -/
theorem test_decode_illop : decode 0x00000005 = .error .illop ∧ decode 0xFFFFFF05 = .error .illop := by
  decide

/-- X3, X5, X6: reserved bits of both formats. -/
theorem test_decode_rsvd : decode 0x00000100 = .error .rsvd ∧ decode 0x00002020 = .error .rsvd
    ∧ decode 0x00200020 = .error .rsvd := by decide

/-- R82: the worked encodings. -/
theorem test_encode_worked : encode (.chain 0 15) = 0x000F0020 ∧ encode (.chain 11 4) = 0x00040B20
    ∧ encode .verify = 0x00000044 ∧ (AsmOperand.buffer 0x1000 2144).word = 0x08601000 := by decide

/-- The table's CHAIN row with both fields full. -/
theorem test_table_word_chain : decodeTableWord 32 0x001F1F20 = some (.chain 31 31) := by decide

/-! ### One step of each command -/

/-- V0: NOP after an error clears the status fields. -/
theorem test_nop_clears_status :
    after { afterLengthError with busy := true } State.statusWord = some 0x00000002 := by decide

/-- V1. -/
theorem test_prf_zero :
    after (inFlight 0x00000001 #v[0x00200000, 0x00200020, 0x00200040, 0, 0, 0] [])
      (fun t => (t.statusWord, Memory.readBytes t.wmem 0x40 32)) = some (0x00000002,
        [0x69, 0x45, 0xa6, 0xf1, 0x3a, 0xa8, 0x3e, 0x59, 0x8c, 0xb8, 0xd0, 0xab, 0xeb, 0xb5, 0xcd,
        0xdb, 0xd8, 0x7e, 0x57, 0x62, 0x26, 0x51, 0x7f, 0x90, 0x01, 0xc1, 0xd3, 0x6b, 0xb3, 0x20, 0xbf,
        0x80]) := by
  decide +kernel

/-- X8: BOUNDS at ARG2. -/
theorem test_prf_bounds :
    after (inFlight 0x00000001 #v[0x00200000, 0x00200020, 0x0020FFF0, 0, 0, 0] []) State.statusWord
      = some 0x00020406 := by decide

/-- V3. -/
theorem test_fstep_zero :
    after (inFlight 0x00000002 #v[0x00200000, 0x00200020, 0x00200040, 0x00200060, 0, 0] [])
      (fun t => Memory.readBytes t.wmem 0x60 32) = some
        [0xf2, 0x30, 0xe0, 0x4d, 0xc9, 0xbd, 0x2c, 0x68, 0x1c, 0x95, 0x01, 0x2d, 0x2e, 0x65, 0x72,
        0x2c, 0xbe, 0x8b, 0xa9, 0x84, 0xb9, 0x7d, 0xc5, 0x92, 0xee, 0xf1, 0x43, 0x2b, 0xc5, 0xd2, 0x34,
        0x7b] := by
  decide +kernel

/-- V10: a zero-length output at 0xFFFF passes its bounds check and nothing is written. -/
theorem test_expand_zero_length :
    after (inFlight 0x00000010 #v[0x00200000, 0x0000FFFF, 0, 0, 0, 0] abc)
      (fun t => (t.statusWord, t.wmem)) = some (0x00000002, abc) := by decide

/-- V9: base_1 of the secret 0^32. -/
theorem test_chainBase_one : chainBase hw (List.replicate 32 0) 1 =
        [0x99, 0x4b, 0x10, 0x5a, 0x92, 0x24, 0xe5, 0xed, 0xcb, 0xc2, 0x65, 0xef, 0x0a, 0x76, 0x93,
        0x90, 0x05, 0xce, 0xcb, 0xe8, 0x70, 0x97, 0x13, 0x4c, 0x0b, 0x52, 0xf1, 0xd1, 0xa4, 0x12, 0x70,
        0xc2] := by
  decide +kernel

/-- EXPBASES with a 2143-byte output is LENGTH at ARG1 (R134). -/
theorem test_expbases_length :
    after (inFlight 0x00000011 #v[0x00200000, 0x085F1000, 0, 0, 0, 0] []) State.statusWord
      = some 0x00010306 := by decide

/-- V8 (b): the tag is loaded little-endian and serialised big-endian. -/
theorem test_chain_tag_load :
    after (inFlight 0x00010020 #v[0x00200000, 0x00200000, 0x00200020, 5, 0x00200040, 0]
        (Memory.writeBytes [] 0x20 ((List.range 32).map (BitVec.ofNat 8))))
      (fun t => Memory.readBytes t.wmem 0x40 32) = some
        [0x7c, 0x3e, 0x04, 0x74, 0x28, 0x04, 0xe0, 0xcf, 0xcc, 0xa6, 0xbc, 0x1e, 0xae, 0x09, 0xa2,
        0x79, 0x31, 0xaf, 0xad, 0xf9, 0x9e, 0x62, 0x32, 0xfc, 0xf3, 0x64, 0x2b, 0x34, 0xc8, 0x25, 0x8e,
        0x5e] := by
  decide +kernel

/-- V7: START = 16 performs no step, so the value is copied. -/
theorem test_chain_cap :
    after (inFlight 0x00011020 #v[0x00200000, 0x00200020, 0x00200020, 0, 0x00200040, 0] abc)
      (fun t => Memory.readBytes t.wmem 0x40 4) = some [0x61, 0x62, 0x63, 0x00] := by decide +kernel

/-- V12. -/
theorem test_hmsg_abc :
    after (inFlight 0x00000030 #v[0x00030000, 0x00200100, 0, 0, 0, 0] abc)
      (fun t => (t.statusWord, Memory.readBytes t.wmem 0x100 32)) = some (0x00000002,
        [0xba, 0x78, 0x16, 0xbf, 0x8f, 0x01, 0xcf, 0xea, 0x41, 0x41, 0x40, 0xde, 0x5d, 0xae, 0x22,
        0x23, 0xb0, 0x03, 0x61, 0xa3, 0x96, 0x17, 0x7a, 0x9c, 0xb4, 0x10, 0xff, 0x61, 0xf2, 0x00, 0x15,
        0xad]) := by
  decide +kernel

/-- X12: BOUNDS at ARG0. -/
theorem test_hmsg_bounds :
    after (inFlight 0x00000030 #v[0x0002FFFF, 0x00200100, 0, 0, 0, 0] []) State.statusWord
      = some 0x00000406 := by decide

/-- V14: digest 0^32, the largest checksum. -/
theorem test_encode_zero_digest :
    after (inFlight 0x00000031 #v[0x00200000, 0x00430100, 0, 0, 0, 0] [])
      (fun t => Memory.readBytes t.wmem 0x100 67) = some (List.replicate 64 0x00 ++ [0x03, 0x0C, 0x00]) := by
  decide +kernel

/-- V13: digest FF × 32, the smallest checksum. -/
theorem test_encode_full_digest :
    digitBytes (encodeDigits (List.replicate 32 0xFF)) = List.replicate 64 0x0F ++ [0x00, 0x00, 0x00] := by
  decide +kernel

/-- V16. -/
theorem test_encmsg_abc :
    after (inFlight 0x00000032 #v[0x00030000, 0x00430200, 0, 0, 0, 0] abc)
      (fun t => Memory.readBytes t.wmem 0x200 67) = some
        [0x0b, 0x0a, 0x07, 0x08, 0x01, 0x06, 0x0b, 0x0f, 0x08, 0x0f, 0x00, 0x01, 0x0c, 0x0f, 0x0e,
        0x0a, 0x04, 0x01, 0x04, 0x01, 0x04, 0x00, 0x0d, 0x0e, 0x05, 0x0d, 0x0a, 0x0e, 0x02, 0x02, 0x02,
        0x03, 0x0b, 0x00, 0x00, 0x03, 0x06, 0x01, 0x0a, 0x03, 0x09, 0x06, 0x01, 0x07, 0x07, 0x0a, 0x09,
        0x0c, 0x0b, 0x04, 0x01, 0x00, 0x0f, 0x0f, 0x06, 0x01, 0x0f, 0x02, 0x00, 0x00, 0x01, 0x05, 0x0a,
        0x0d, 0x02, 0x01, 0x02] := by
  decide +kernel

/-- GEN completes on valid operands (V20's registers); its bytes rest on the open H64. -/
theorem test_gen_completes :
    after (inFlight 0x00000040 #v[0x00200000, 0x08A02000, 0x00200100, 0, 0, 0] []) State.statusWord
      = some 0x00000002 := by decide +kernel

/-- X14: a failed draw is ENTROPY, and no byte changes. -/
theorem test_genr_failed_draw :
    after { inFlight 0x00000041 #v[0x08A02000, 0x00200100, 0, 0, 0, 0] abc with entropy := [none] }
      (fun t => (t.statusWord, t.wmem, t.draws)) = some (0x00000506, abc, 1) := by decide

/-- V21: a draw that answers is used up and GENR completes. -/
theorem test_genr_draw :
    after { inFlight 0x00000041 #v[0x08A02000, 0x00200100, 0, 0, 0, 0] [] with
        entropy := [some (Vector.replicate 32 0), none] }
      (fun t => (t.statusWord, t.entropy)) = some (0x00000002, [none]) := by decide +kernel

/-- SIGN with a 31-byte secret is LENGTH at ARG1 (R196). -/
theorem test_sign_length :
    after (inFlight 0x00000042 #v[0x00030000, 0x001F0100, 0x08601000, 0, 0, 0] abc) State.statusWord
      = some 0x00010306 := by decide

/-- PKSIG with a 33-byte tag is LENGTH at ARG3 (R197). -/
theorem test_pksig_length :
    after (inFlight 0x00000043 #v[0x08601000, 0x00030000, 0x00202860, 0x00212880, 0x08604000, 0] abc)
      State.statusWord = some 0x00030306 := by decide

/-- X10: LENGTH at ARG0 before BOUNDS at ARG2. -/
theorem test_verify_first_failure :
    after (inFlight 0x00000044 #v[0x085F1000, 0x00030000, 0x08A0FFFF, 0, 0, 0] abc) State.statusWord
      = some 0x00000306 := by decide

/-- E7: a 2207-byte address is LENGTH at ARG2. -/
theorem test_verify_short_address :
    after (inFlight 0x00000044 #v[0x08601000, 0x00030000, 0x089F2000, 0, 0, 0] abc) State.statusWord
      = some 0x00020306 := by decide

/-! ### The host's side -/

/-- R24: PARAM with the default WMEM_SIZE. -/
theorem test_param : paramWord hw = 0x01104310
    ∧ paramWord { hw with wmemSize := .kib8 } = 0x010D4310 := by decide

/-- P3: CLRDONE keeps ERR, ERRCODE and ERRARG. -/
theorem test_clrdone :
    after { afterLengthError with events := [clrdone] } State.statusWord = some 0x00000304 := by decide

/-- P5: an ARG write while BUSY is lost and sets WBUSY. -/
theorem test_arg_write_while_busy :
    after (accessed (inFlight 0x00000040 #v[0x00200000, 0, 0, 0, 0, 0] []) (.write 0x014 .word 0x00200040))
      (fun t => (t.statusWord, t.args[0])) = some (0x00000011, 0x00200000) := by decide

/-- R54: a 16-bit write stores the low byte first, and a bus error changes no byte. -/
theorem test_window_write : (accessed State.reset (.write 0x10002 .half 0xABCD1234)).wmem = []
    ∧ after (accessed State.reset (.write 0x10002 .half 0xABCD1234)) State.wmem
      = some [(2, 0x34), (3, 0x12)]
    ∧ after (accessed State.reset (.write 0x10001 .half 0xABCD1234)) State.wmem = some [] := by decide

/-- P5: a soft reset while BUSY clears STATUS and IRQEN. -/
theorem test_srst_while_busy :
    after { inFlight 0x00000031 #v[0x00200000, 0x00430100, 0, 0, 0, 0] abc with
        irqen := true, events := [srst] }
      (fun t => (t.statusWord, t.irqen, t.irq, t.cmd)) = some (0, false, false, 0) := by decide

/-- R80: a command line writes the six ARG registers, CMD and CTRL, and reads STATUS. -/
theorem test_command_line :
    commandLine false .hmsg [.buffer 0 3, .buffer 0x100 32]
      = [hostWrite 0x014 0x00030000, hostWrite 0x018 0x00200100, hostWrite 0x01C 0, hostWrite 0x020 0,
         hostWrite 0x024 0, hostWrite 0x028 0, hostWrite 0x010 0x30, hostWrite 0x008 1, .engine,
         readStatus] := by decide

/-- R5: the literals agree with one another. -/
theorem test_constants_agree : Config.chains * Config.hashBytes = Config.sigBytes
    ∧ Config.sigBytes + 2 * Config.hashBytes = Config.addrBytes
    ∧ Config.len1 + Config.len2 = Config.chains ∧ Config.len1 * 15 = Config.csumMax
    ∧ Config.csumMax * 2 ^ Config.csumShift < 65536 ∧ 2 ^ Config.logW = Config.chainPositions := by decide

/-- Integer part and the first 32 bits of the fraction of a root: the largest x with x ^ e ≤ p · 2 ^ (32 e),
for an integer part below 20. -/
def isRootFraction (e p : Nat) (fraction : Word) : Bool :=
  (List.range 20).any fun n =>
    decide ((n * 2 ^ 32 + fraction.toNat) ^ e ≤ p * 2 ^ (32 * e))
      && decide (p * 2 ^ (32 * e) < (n * 2 ^ 32 + fraction.toNat + 1) ^ e)

/-- The primes below `n`. -/
def primesBelow (n : Nat) : List Nat :=
  (List.range n).filter fun p => decide (2 ≤ p) && (List.range p).all fun d => decide (d < 2) || p % d != 0

/-- The round constants are the fractions of the cube roots of the first 64 primes, as FIPS 180-4 says
(log entry 1). -/
theorem test_sha_constants : shaConstants.length = 64 ∧ (primesBelow 312).length = 64
    ∧ (List.zip (primesBelow 312) shaConstants).all (fun c => isRootFraction 3 c.1 c.2) = true := by
  decide +kernel

/-- The initial hash value is the fractions of the square roots of the first 8 primes. -/
theorem test_sha_init : (List.zip (primesBelow 20) [shaInit.a, shaInit.b, shaInit.c, shaInit.d, shaInit.e,
    shaInit.f, shaInit.g, shaInit.h]).all (fun c => isRootFraction 2 c.1 c.2) = true := by decide +kernel

/-- R54: a 64-bit access, say, is a bus error in both windows and changes no byte. -/
theorem test_other_width :
    after (accessed (inFlight 0x31 #v[0, 0, 0, 0, 0, 0] abc) (.write 0x10000 .other 0xFF))
      (fun t => (t.response, t.wbusy, t.wmem))
      = some (.busError, false, abc)
    ∧ after (accessed State.reset (.read 0x00000 .other)) State.response = some .busError := by decide

/-- An idle block about to start SIGN of the `len` bytes at address 0 under the secret 0^32 at 0x100. -/
def aboutToSign (len : Word) : State :=
  { State.reset with cmd := 0x42, args := #v[len <<< 16, 0x00200100, 0x08601000, 0, 0, 0], wmem := abc,
                     events := [hostWrite 0x008 1] }

theorem aboutToSign_signStarted (len : Word) (h : bufferFits (len <<< 16)) :
    signStarted (aboutToSign len) ((aboutToSign len).input 0) ((aboutToSign len).input 1) := by
  refine ⟨.inl ⟨rfl, 1, [], rfl, by decide⟩, show decode 0x42 = .ok .sign by decide, ⟨?_, ?_⟩, ⟨?_, ?_⟩,
    rfl, rfl⟩
  · rintro ⟨n, h | h, -⟩ <;> simp [operandRoles] at h
  · rintro ⟨f, -, hb⟩
    exact hb h
  · rintro ⟨n, h | h, hn⟩
    · obtain rfl : n = 32 := by simpa [operandRoles] using h.symm
      exact hn (show (descOf 0x00200100).len = 32 by decide)
    · simp [operandRoles] at h
  · rintro ⟨f, -, hb⟩
    exact hb (show bufferFits 0x00200100 by decide)

/-- R259: starting a second SIGN with the same secret and another message breaks the host's duty even where
a soft reset abandoned the first. -/
theorem test_abort_does_not_excuse :
    ¬ oneTimeDiscipline [aboutToSign 1, { aboutToSign 1 with busy := true, events := [srst] },
      aboutToSign 2] := by
  intro h
  have hm := h _ (by simp) _ (by simp) _ _ _ (aboutToSign_signStarted 1 (by decide))
    (aboutToSign_signStarted 2 (by decide))
  exact absurd hm (by decide)

/-! ### States that meet the statements' hypotheses -/

/-- Operands that pass for every command with at most five 32-byte buffers. -/
def args32 : Vector Word 6 := #v[0x00200000, 0x00200020, 0x00200040, 0x00200060, 0x0020FFE0, 0]

theorem witness_well_formed : (Instr.chain 31 31).wellFormed = true ∧ Instr.verify.wellFormed = true := by
  decide

theorem witness_decode_ok : decode 0x001F1F20 = .ok (.chain 31 31) ∧ decode 0x00000044 = .ok .verify := by
  decide

theorem witness_decode_clauses :
    ((0x45#32).extractLsb' 0 8).toNat = 0x45 ∧ ((0x144#32).extractLsb' 8 24 ≠ 0)
    ∧ ((0x44#32).extractLsb' 8 24 = 0) ∧ ((0x2020#32).extractLsb' 13 3 ≠ 0)
    ∧ ((0x200020#32).extractLsb' 21 11 ≠ 0) ∧ ((0x1F1F20#32).extractLsb' 21 11 = 0)
    ∧ ((0x1F1F20#32).extractLsb' 13 3 = 0) := by decide

/-- The engine's turn, due and as the next event, on words that do not decode. -/
theorem witness_undecodable : engineNext (inFlight 0x45 args32 [])
    ∧ engineNext { inFlight 0x80000044 args32 [] with events := [.engine, .resetInput] }
    ∧ decode (inFlight 0x45 args32 []).cmd = .error .illop
    ∧ decode (inFlight 0x80000044 args32 []).cmd = .error .rsvd :=
  ⟨⟨rfl, .inl rfl⟩, ⟨rfl, .inr ⟨_, rfl⟩⟩, by decide, by decide⟩

theorem witness_in_flight : engineNext (inFlight 0x00000001 args32 [])
    ∧ (inFlight 0x00000001 args32 []).events = []
    ∧ decode (inFlight 0x00000001 args32 []).cmd = .ok .prf
    ∧ engineNext { inFlight 0x00000001 args32 [] with events := [.engine] } :=
  ⟨⟨rfl, .inl rfl⟩, rfl, by decide, ⟨rfl, .inr ⟨_, rfl⟩⟩⟩

theorem witness_invariant : MachineInv (inFlight 0x00000001 args32 abc)
    ∧ ∃ t, step (inFlight 0x00000001 args32 abc) = .next t :=
  ⟨by decide, _, rfl⟩

theorem witness_exec_answers : (∃ t, exec .encode (inFlight 0x31 #v[0x00200000, 0x00430100, 0, 0, 0, 0] abc)
      = .next t ∧ t.err = false)
    ∧ ¬ inOutputBuffer .encode #v[0x00200000, 0x00430100, 0, 0, 0, 0] 0xFF
    ∧ inOutputBuffer .encode #v[0x00200000, 0x00430100, 0, 0, 0, 0] 0x142 := by
  refine ⟨⟨_, rfl, rfl⟩, ?_, ⟨1, _, rfl, by decide, by decide⟩⟩
  rintro ⟨k, f, hk, h1, h2⟩
  fin_cases k <;> first | (revert h1; decide) | simp [operandRoles] at hk

/-- Two states that differ in an ignored ARG, in WMEM outside the input and in CMD. -/
theorem witness_same_inputs :
    let s := inFlight 0x31 #v[0x00200000, 0x00430100, 0, 0, 0, 0] abc
    let s' := inFlight 0 #v[0x00200000, 0x00430100, 0, 0, 0, 7] (Memory.writeBytes abc 0x500 [1])
    Instr.encode ≠ .genr ∧ (∀ k : Fin 6, (operandRoles .encode)[k] ≠ .ignored → s.args[k] = s'.args[k])
    ∧ (∀ (k : Fin 6) (f : Option Nat), (operandRoles .encode)[k] = .input f → s.input k = s'.input k) := by
  refine ⟨by decide, by decide, ?_⟩
  intro k f hk
  fin_cases k
  · decide +kernel
  all_goals simp [operandRoles] at hk

/-- Two states of a GENR with the same draw and different WMEM. -/
theorem witness_same_draw :
    ({ inFlight 0x41 #v[0x08A02000, 0x00200100, 0, 0, 0, 0] abc with entropy := [none] } : State).entropyDraw
      = ({ inFlight 0x41 #v[0x08A02000, 0x00200100, 0, 0, 0, 0] [] with entropy := [none] } : State).entropyDraw
    ∧ ∃ t, exec .genr { inFlight 0x41 #v[0x08A02000, 0x00200100, 0, 0, 0, 0] abc with entropy := [none] }
      = .next t := ⟨by decide, _, rfl⟩

theorem witness_errors : engineNext (inFlight 0x01 #v[0x001F0000, 0, 0, 0, 0, 0] abc)
    ∧ ∃ t, step (inFlight 0x01 #v[0x001F0000, 0, 0, 0, 0, 0] abc) = .next t ∧ t.err = true :=
  ⟨⟨rfl, .inl rfl⟩, _, rfl, rfl⟩

/-- LENGTH fails at ARG2 after two that pass; BOUNDS at ARG2, its length right; none fails. -/
theorem witness_operand_checks :
    checkOperands hw .prf #v[0x00200000, 0x0020FFE0, 0x001F0040, 0, 0, 0] = some ⟨.length, 2⟩
    ∧ checkOperands hw .prf #v[0x00200000, 0x0020FFE0, 0x0020FFE1, 0, 0, 0] = some ⟨.bounds, 2⟩
    ∧ checkOperands hw .prf args32 = none
    ∧ (descOf 0x001F0040).len ≠ 32 ∧ ¬ bufferFits 0x0020FFE1 ∧ bufferFits 0x0020FFE0 := by decide

theorem witness_prf : bufferOf args32[0] 32 ∧ bufferOf args32[1] 32 ∧ bufferOf args32[2] 32 := by decide

theorem witness_fstep : bufferOf args32[0] 32 ∧ bufferOf args32[1] 32 ∧ bufferOf args32[2] 32
    ∧ bufferOf args32[3] 32 := by decide

theorem witness_expand : bufferOf 0x0020FFE0 32 ∧ bufferFits 0xFFFF0001 := by decide

theorem witness_expbases : bufferOf 0x00200000 32 ∧ bufferOf 0x0860F7A0 2144 := by decide

theorem witness_chain : bufferOf args32[0] 32 ∧ bufferOf args32[1] 32 ∧ bufferOf args32[2] 32
    ∧ bufferOf args32[4] 32 := by decide

theorem witness_hmsg : bufferFits 0x00000000 ∧ bufferFits 0x0001FFFF ∧ bufferOf 0x00200100 32 := by decide

theorem witness_encode : bufferOf 0x00200000 32 ∧ bufferOf 0x00430100 67 := by decide

theorem witness_encmsg : bufferFits 0x00030000 ∧ bufferOf 0x0043FFBD 67 := by decide

/-- GEN's operands, apart and overlapping (the secret over the first chain top, V20). -/
theorem witness_gen : bufferOf 0x00200000 32 ∧ bufferOf 0x08A02000 2208 ∧ bufferOf 0x00200100 32
    ∧ bufferOf 0x00202000 32 ∧ (∃ t, exec .gen (inFlight 0x40
        #v[0x00200000, 0x08A02000, 0x00202000, 0, 0, 0] []) = .next t)
    ∧ (descOf 0x00202000).addr + 32 ≤ (descOf 0x08A02000).addr + 32 :=
  ⟨by decide, by decide, by decide, by decide, ⟨_, rfl⟩, by decide⟩

theorem witness_genr : bufferOf 0x08A02000 2208 ∧ bufferOf 0x00200100 32
    ∧ State.entropyDraw { State.reset with entropy := [some (Vector.replicate 32 0)] }
      = some (Vector.replicate 32 0)
    ∧ State.entropyDraw { State.reset with entropy := [none] } = none := by decide

theorem witness_sign : bufferFits 0x00030000 ∧ bufferOf 0x00200100 32 ∧ bufferOf 0x08601000 2144 := by decide

theorem witness_pksig : bufferOf 0x08601000 2144 ∧ bufferFits 0x00030000 ∧ bufferOf 0x00202860 32
    ∧ bufferOf 0x00202880 32 ∧ bufferOf 0x08604000 2144 := by decide

theorem witness_verify : bufferOf 0x08601000 2144 ∧ bufferFits 0x00030000 ∧ bufferOf 0x08A02000 2208 := by
  decide

theorem witness_ctrl_words : (1#32)[0] = true ∧ (1#32)[1] = false ∧ (4#32)[0] = false ∧ (4#32)[1] = false
    ∧ (7#32)[1] = true ∧ (3#32)[2] = false ∧ (2#32)[1] = true := by decide

theorem witness_busy_and_idle : State.reset.busy = false ∧ (inFlight 0x31 args32 []).busy = true := by decide

/-- The abort frame's inner hypothesis: address 0x143 lies outside ENCODE's output [0x100, 67], and 0x100
inside an output of length 66, which fails its check and so keeps its bytes. -/
theorem witness_abort : decode (inFlight 0x31 #v[0x00200000, 0x00430100, 0, 0, 0, 0] abc).cmd = .ok .encode
    ∧ ¬ inCheckedOutputBuffer .encode #v[0x00200000, 0x00430100, 0, 0, 0, 0] 0x143
    ∧ ¬ inCheckedOutputBuffer .encode #v[0x00200000, 0x00420100, 0, 0, 0, 0] 0x100 := by
  refine ⟨by decide, ?_, ?_⟩
  · rintro ⟨k, f, hk, -, h1, h2⟩
    fin_cases k <;> (revert h2; decide)
  · rintro ⟨k, f, hk, hp, h1, h2⟩
    fin_cases k <;> first
      | (simp [operandRoles] at hk; done)
      | exact hp.1 ⟨67, .inr rfl, by decide⟩

theorem witness_host_waits : hostWaits { State.reset with wbusy := true }
    ∧ ∃ t, step { State.reset with wbusy := true } = .next t ∧ t.wbusy = true :=
  ⟨fun h => Bool.noConfusion h, _, rfl, rfl⟩

/-- A host write that changes WMEM. -/
theorem witness_wmem_changes : ∃ t, step (accessed State.reset (.write 0x10000 .byte 1)) = .next t
    ∧ t.wmem ≠ (accessed State.reset (.write 0x10000 .byte 1)).wmem := ⟨_, rfl, by decide⟩

theorem witness_constant_offsets : (0x000#17).toNat % 4 = 0 ∧ (0x004#17).toNat ≤ 0x004
    ∧ 0x02C ≤ (0x02C#17).toNat ∧ (0x0FFFC#17).toNat < 0x10000 ∧ (0x0FFFC#17).toNat % 4 = 0 := by decide

/-- Both ends of the locked registers and of the WMEM window, in each width. -/
theorem witness_locked_offsets : 0x010 ≤ (0x010#17).toNat ∧ (0x028#17).toNat ≤ 0x028
    ∧ (0x028#17).toNat % 4 = 0 ∧ 0x10000 ≤ (0x10000#17).toNat
    ∧ Width.byte.bytes = some 1 ∧ (0x1FFFF#17).toNat % 1 = 0 ∧ Width.half.bytes = some 2
    ∧ (0x1FFFE#17).toNat % 2 = 0 ∧ Width.word.bytes = some 4 ∧ (0x1FFFC#17).toNat % 4 = 0 := by decide

/-- With 8 KiB of WMEM the window goes on past its end. -/
theorem witness_past_the_end : 0x10000 + ({ hw with wmemSize := .kib8 } : Config.Params).wmemBytes
      ≤ (0x12000#17).toNat ∧ Width.word.bytes = some 4 ∧ (0x12000#17).toNat % 4 = 0 := by decide

theorem witness_bus_error : Width.half.bytes = some 2 ∧ (0x10001#17).toNat % 2 ≠ 0
    ∧ (0x0000C#17).toNat < 0x10000 ∧ Width.byte ≠ .word := by decide

theorem witness_irq : (∃ t, step (inFlight 0 args32 []) = .next t)
    ∧ (∃ t, step (accessed afterLengthError (.write 0x00C .word 0x2)) = .next t)
    ∧ (∃ t, step (accessed afterLengthError (.write 0x008 .word 0x0)) = .next t) :=
  ⟨⟨_, rfl⟩, ⟨_, rfl⟩, ⟨_, rfl⟩⟩

/-- The chain laws' bounds: a start and length that meet the cap exactly, the last index, and past it. -/
theorem witness_chain_bounds : 9 + 7 ≤ 16 ∧ 15 ≤ 15 ∧ 16 ≤ 16 := by decide

theorem witness_tags : (List.replicate 32 (0 : Byte)).length = 32
    ∧ (List.replicate 20 (0 : Byte) ++ List.replicate 12 1).length = 32
    ∧ (List.replicate 32 (0 : Byte)).take 20
      = (List.replicate 20 (0 : Byte) ++ List.replicate 12 1).take 20 := by decide

theorem witness_load_orders : ({ hw with addrWordLoad := .big } : Config.Params).addrWordLoad = .big
    ∧ hw.addrWordLoad = .little ∧ 7 < 8 ∧ 3 < 4 := ⟨rfl, rfl, by decide, by decide⟩

theorem witness_expand_lengths : 32 ≤ 40 := by decide

theorem witness_digits : (List.replicate 64 15).length = 64 ∧ ∀ d ∈ List.replicate 64 15, d ≤ 15 := by decide

theorem witness_digests : (List.replicate 32 (0 : Byte)).length = 32 ∧ (List.replicate 32 (1 : Byte)).length = 32
    ∧ List.replicate 32 (0 : Byte) ≠ List.replicate 32 1 := by decide

/-- The seed 0^32 and the empty message: address and signature written where VERIFY's operands name
them. -/
def genuineSeed : Bytes := List.replicate 32 0

/-- The memory of the witness of a genuine signature. -/
def genuineMemory : Memory :=
  Memory.writeBytes (Memory.writeBytes [] 0x1000 (signMessage hw [] (keypair hw genuineSeed).2))
    0x2000 (keypair hw genuineSeed).1

/-- The state of the witness of a genuine signature. -/
def genuineState : State := inFlight 0x44 #v[0x08601000, 0x00000000, 0x08A02000, 0, 0, 0] genuineMemory

theorem witness_genuine_operands : bufferOf 0x08601000 2144 ∧ bufferFits 0x00000000
    ∧ bufferOf 0x08A02000 2208 := by decide

theorem witness_genuine_address : genuineState.input 2 = (keypair hw genuineSeed).1 := by
  have h := Memory.readBytes_writeBytes
    (Memory.writeBytes [] 0x1000 (signMessage hw [] (keypair hw genuineSeed).2)) 0x2000
    (keypair hw genuineSeed).1
  rw [length_keypair_fst] at h
  exact h

/-- The signature operand names the 2144 bytes from 0x1000. -/
theorem witness_genuine_buffer : genuineState.input 0 = Memory.readBytes genuineMemory 0x1000 2144 := by
  have ha : (descOf genuineState.args[0]).addr = 0x1000 := by decide
  have hl : (descOf genuineState.args[0]).len = 2144 := by decide
  unfold State.input
  erw [ha, hl]
  with_unfolding_all rfl

theorem witness_genuine_signature :
    genuineState.input 0 = signMessage hw (genuineState.input 1) (keypair hw genuineSeed).2 := by
  have hm : genuineState.input 1 = [] := rfl
  rw [hm, witness_genuine_buffer]
  apply List.ext_getElem
  · rw [length_signMessage, Memory.length_readBytes]
  · intro k h1 h2
    have hk : k < 2144 := by rwa [length_signMessage] at h2
    rw [Memory.getElem_readBytes, genuineMemory, Memory.read_writeBytes_outside _ _ _ _ (by omega),
      Memory.read_writeBytes_inside _ _ _ _ h2]

end Sys2Proof.Tests
end

/-! SUPPORT. The register map read both ways, and what a step is when the next event is a host access to a
register. -/

namespace Sys2Proof.Machine

/-! ### Which offset is which register (R22, R27) -/

theorem regAt_eq_ctrl {off : Nat} : regAt off = .ctrl ↔ off = 0x008 := by
  unfold regAt
  split <;> simp_all

theorem regAt_eq_status {off : Nat} : regAt off = .status ↔ off = 0x00C := by
  unfold regAt
  split <;> simp_all

theorem regAt_eq_cmd {off : Nat} : regAt off = .cmd ↔ off = 0x010 := by
  unfold regAt
  split <;> simp_all

theorem regAt_eq_arg {off : Nat} {k : Fin 6} : regAt off = .arg k ↔ off = 0x014 + 4 * k.val := by
  constructor
  · unfold regAt
    split <;> intro h <;> cases h <;> rfl
  · rintro rfl
    fin_cases k <;> rfl

theorem regAt_reserved {off : Nat} (h : 0x02C ≤ off) : regAt off = .reserved := by
  unfold regAt
  split
  case h_12 => rfl
  all_goals omega

/-- The registers locked while BUSY are exactly those from CMD to ARG5 (R256). -/
theorem regAt_locked {off : Nat} (hlo : 0x010 ≤ off) (hhi : off ≤ 0x028) (ha : off % 4 = 0) :
    regAt off = .cmd ∨ ∃ k, regAt off = .arg k := by
  by_cases h : off = 0x010
  · exact .inl (regAt_eq_cmd.mpr h)
  · exact .inr ⟨⟨(off - 0x014) / 4, by omega⟩, regAt_eq_arg.mpr (by simp only; omega)⟩

/-- The offset of ARGk, as the statements write it. -/
theorem toNat_argOffset (k : Fin 6) : (BitVec.ofNat 17 (0x014 + 4 * k.val)).toNat = 0x014 + 4 * k.val := by
  rw [BitVec.toNat_ofNat]
  omega

/-! ### The step of a register access -/

section
variable (s : State) (rest : List Event) {off : BitVec 17} {r : Reg}

theorem step_write_register (v : Word) (hreg : regAt off.toNat = r) (ha : off.toNat % 4 = 0)
    (hr : off.toNat < wmemWindow) :
    step { s with events := .access (.write off .word v) :: rest }
      = .next ((({ s with events := rest } : State).writeReg hw r v).answer .written) := by
  rw [step_access rfl, access_write_register v ha hr, hreg]

theorem step_read_register (hreg : regAt off.toNat = r) (ha : off.toNat % 4 = 0)
    (hr : off.toNat < wmemWindow) :
    step { s with events := .access (.read off .word) :: rest }
      = .next (({ s with events := rest } : State).answer
          (.data (({ s with events := rest } : State).readReg hw r))) := by
  rw [step_access rfl, access_read_register ha hr, hreg]

end

/-! ### A write to each register -/

section
variable {P : Config.Params} {s : State} {v : Word}

theorem writeReg_ctrl_reset (h1 : v[1] = true) : s.writeReg P .ctrl v = s.resetPowered P := by
  simp [State.writeReg, State.writeCtrl, h1]

theorem writeReg_ctrl_start (h0 : v[0] = true) (h1 : v[1] = false) :
    s.writeReg P .ctrl v = ({ s with irqen := v[2] } : State).requestStart := by
  simp [State.writeReg, State.writeCtrl, h0, h1]

theorem writeReg_ctrl_irqen (h0 : v[0] = false) (h1 : v[1] = false) :
    s.writeReg P .ctrl v = { s with irqen := v[2] } := by
  simp [State.writeReg, State.writeCtrl, h0, h1]

theorem writeReg_status : s.writeReg P .status v = s.writeStatus v := rfl

theorem writeReg_cmd_idle (hb : s.busy = false) : s.writeReg P .cmd v = { s with cmd := v } := by
  simp [State.writeReg, hb]

theorem writeReg_arg_idle (k : Fin 6) (hb : s.busy = false) :
    s.writeReg P (.arg k) v = { s with args := s.args.set k v } := by
  simp [State.writeReg, hb]

theorem writeReg_locked {r : Reg} (hb : s.busy = true) (hr : r = .cmd ∨ ∃ k, r = .arg k) :
    s.writeReg P r v = s.loseWrite := by
  obtain rfl | ⟨k, rfl⟩ := hr <;> simp [State.writeReg, hb]

end

/-! ### A start request, a reset and power-on -/

theorem requestStart_idle {s : State} (hb : s.busy = false) : s.requestStart = s.acceptStart := by
  simp [State.requestStart, hb]

theorem requestStart_busy {s : State} (hb : s.busy = true) : s.requestStart = s.loseWrite := by
  simp [State.requestStart, hb]

theorem resetPowered_idle {P : Config.Params} {s : State} (hb : s.busy = false) :
    s.resetPowered P = resetState s s.wmem s.frees := by
  simp [State.resetPowered, hb, State.clearRegisters, resetState]

theorem resetPowered_busy {P : Config.Params} {s : State} (hb : s.busy = true) :
    s.resetPowered P = resetState s (s.scrambleOutputs P).wmem (s.frees + 1) := by
  simp [State.resetPowered, hb, State.clearRegisters, resetState, State.freed, State.scrambleOutputs]

theorem resetPowered_answer_response (P : Config.Params) (s : State) :
    (s.resetPowered P).answer s.response = s.resetPowered P := by
  unfold State.resetPowered
  split <;> rfl

theorem powerOn_eq_resetState (P : Config.Params) (s : State) :
    s.powerOn P = resetState s (Memory.writeBytes [] 0 (s.freeBytes 0 P.wmemBytes)) (s.frees + 1) := rfl

@[simp] theorem length_freeBytes (s : State) (a n : Nat) : (s.freeBytes a n).length = n := by
  simp [State.freeBytes]

/-- The buffers an abort may change end inside WMEM (R252). -/
theorem abortedBuffers_fit {s : State} {d : Desc} (h : d ∈ s.abortedBuffers hw) :
    d.addr + d.len ≤ hw.wmemBytes := by
  unfold State.abortedBuffers at h
  split at h
  next i hi =>
    obtain ⟨k, -, hk⟩ := List.mem_filterMap.mp h
    split at hk <;> simp [boundsOk] at hk
    obtain ⟨⟨-, hfit⟩, rfl⟩ := hk
    exact hfit
  next => simp at h

end Sys2Proof.Machine

/-! SUPPORT. What a step can do, said once: every step of every state is one of the transitions below. -/

namespace Sys2Proof.Machine

/-- The state once the next event is off the list. -/
def State.popped (s : State) : State := { s with events := s.events.tail }

theorem State.popped_of_no_event {s : State} (h : s.events = []) : s.popped = s := by
  rw [State.popped, h]
  exact congrArg (fun e => { s with events := e }) h.symm

/-- The transitions of the block, one constructor for each kind of next event. -/
inductive Transition (s : State) : State → Prop
  /-- The engine performs the command in flight (R91). -/
  | engine {t : State} (h : engineNext s) (ht : perform s.popped = .next t) :
      Transition s t
  /-- Nothing of the block changes: an idle engine's turn, a read, a bus error, an ignored write. -/
  | quiet (r : Response) (frees : Nat) :
      Transition s { s with events := s.events.tail, response := r, frees := frees }
  /-- A reset of an idle block (R250, R251). -/
  | idleReset (hb : s.busy = false) (h : poweredResetNext s) (r : Response) :
      Transition s { resetState s s.wmem s.frees with events := s.events.tail, response := r }
  /-- A reset that aborts the command in flight (R252). -/
  | abort (hb : s.busy = true) (h : poweredResetNext s) (r : Response) :
      Transition s { resetState s (s.scrambleOutputs hw).wmem (s.frees + 1) with
        events := s.events.tail, response := r }
  /-- Power-on (R250). -/
  | powerOn (h : powerOnNext s) :
      Transition s { resetState s (Memory.writeBytes [] 0 (s.freeBytes 0 hw.wmemBytes)) (s.frees + 1) with
        events := s.events.tail }
  /-- An accepted start (R90). -/
  | start (h : startNext s) (irqen : Bool) :
      Transition s { s.acceptStart with events := s.events.tail, response := .written, irqen := irqen }
  /-- A start request that is lost, whose IRQEN bit still counts (R25, R90). -/
  | lostStart (hb : s.busy = true) (h : registerWriteNext s 0x008 fun v => v[0] = true ∧ v[1] = false)
      (irqen : Bool) :
      Transition s { s.loseWrite with events := s.events.tail, response := .written, irqen := irqen }
  /-- A CTRL write with neither START nor SRST (R25). -/
  | irqenWrite (h : registerWriteNext s 0x008 fun v => v[0] = false ∧ v[1] = false) (irqen : Bool) :
      Transition s { s with events := s.events.tail, response := .written, irqen := irqen }
  /-- The host's acknowledgement (R26, R233). -/
  | statusWrite (v : Word) (h : registerWriteNext s 0x00C (· = v)) :
      Transition s { s.writeStatus v with events := s.events.tail, response := .written }
  /-- A write to CMD or an ARG register while idle (R27, R28). -/
  | operandWrite (hb : s.busy = false) (cmd : Word) (args : Vector Word 6) :
      Transition s { s with events := s.events.tail, response := .written, cmd := cmd, args := args }
  /-- A write to WMEM while idle (R51, R54). -/
  | wmemWrite (hb : s.busy = false) (h : wmemWriteNext s) (a : Nat) (v : Bytes)
      (hfit : a + v.length ≤ hw.wmemBytes) :
      Transition s { s with events := s.events.tail, response := .written,
                            wmem := Memory.writeBytes s.wmem a v }
  /-- A write that is lost while a command is in flight (R256). -/
  | lostWrite (hb : s.busy = true) (h : lockedWriteNext s) :
      Transition s { s.loseWrite with events := s.events.tail, response := .written }

section
variable {s : State} {off : BitVec 17} {v : Word}

/-- A soft reset, or the reset input, of the block. -/
theorem transition_resetPowered (h : poweredResetNext s) (r : Response) :
    Transition s ((s.popped.resetPowered hw).answer r) := by
  rcases Bool.eq_false_or_eq_true s.busy with hb | hb
  · rw [resetPowered_busy (by exact hb)]
    exact .abort hb h r
  · rw [resetPowered_idle (by exact hb)]
    exact .idleReset hb h r

theorem transition_writeCtrl (hev : s.events = .access (.write 0x008 .word v) :: s.events.tail) :
    Transition s ((s.popped.writeReg hw .ctrl v).answer .written) := by
  have next {p : Word → Prop} (hp : p v) : registerWriteNext s 0x008 p := ⟨v, _, hev, hp⟩
  cases h1 : v[1] with
  | true =>
    rw [writeReg_ctrl_reset h1]
    exact transition_resetPowered (.inl (next h1)) .written
  | false =>
    cases h0 : v[0] with
    | false =>
      rw [writeReg_ctrl_irqen h0 h1]
      exact .irqenWrite (next ⟨h0, h1⟩) v[2]
    | true =>
      rw [writeReg_ctrl_start h0 h1]
      rcases Bool.eq_false_or_eq_true s.busy with hb | hb
      · rw [requestStart_busy (by exact hb)]
        exact .lostStart hb (next ⟨h0, h1⟩) v[2]
      · rw [requestStart_idle (by exact hb)]
        exact .start ⟨hb, next ⟨h0, h1⟩⟩ v[2]

/-- A lost write to CMD or an ARG register. -/
theorem lockedWriteNext_of_regAt (hev : s.events = .access (.write off .word v) :: s.events.tail)
    (hreg : regAt off.toNat = .cmd ∨ ∃ k, regAt off.toNat = .arg k) : lockedWriteNext s := by
  have hoff : 0x010 ≤ off.toNat ∧ off.toNat ≤ 0x028 := by
    obtain h | ⟨k, h⟩ := hreg
    · have := regAt_eq_cmd.mp h
      omega
    · have := regAt_eq_arg.mp h
      omega
  exact .inr (.inl ⟨off, hoff.1, hoff.2, v, _, hev, trivial⟩)

theorem transition_writeReg (hev : s.events = .access (.write off .word v) :: s.events.tail) :
    Transition s ((s.popped.writeReg hw (regAt off.toNat) v).answer .written) := by
  cases hreg : regAt off.toNat with
  | id => exact .quiet .written s.frees
  | param => exact .quiet .written s.frees
  | reserved => exact .quiet .written s.frees
  | ctrl =>
    obtain rfl : off = 0x008 := BitVec.eq_of_toNat_eq (regAt_eq_ctrl.mp hreg)
    exact transition_writeCtrl hev
  | status =>
    obtain rfl : off = 0x00C := BitVec.eq_of_toNat_eq (regAt_eq_status.mp hreg)
    exact .statusWrite v ⟨v, _, hev, rfl⟩
  | cmd =>
    rcases Bool.eq_false_or_eq_true s.busy with hb | hb
    · rw [writeReg_locked (by exact hb) (.inl rfl)]
      exact .lostWrite hb (lockedWriteNext_of_regAt hev (.inl hreg))
    · rw [writeReg_cmd_idle (by exact hb)]
      exact .operandWrite hb v s.args
  | arg k =>
    rcases Bool.eq_false_or_eq_true s.busy with hb | hb
    · rw [writeReg_locked (by exact hb) (.inr ⟨k, rfl⟩)]
      exact .lostWrite hb (lockedWriteNext_of_regAt hev (.inr ⟨k, hreg⟩))
    · rw [writeReg_arg_idle k (by exact hb)]
      exact .operandWrite hb s.cmd (s.args.set k v)

theorem wmemOffset_lt (off : BitVec 17) : off.toNat - wmemWindow < hw.wmemBytes := by
  have := off.isLt
  rw [wmemBytes_hw]
  unfold wmemWindow
  omega

/-- An aligned access to the WMEM window ends inside WMEM. -/
theorem wmemAccess_fits {width : Width} {n : Nat} (hlo : wmemWindow ≤ off.toNat)
    (hn : width.bytes = some n) (ha : off.toNat % n = 0) :
    off.toNat - wmemWindow + n ≤ hw.wmemBytes := by
  have := off.isLt
  rw [wmemBytes_hw]
  unfold wmemWindow at *
  cases width <;> cases hn <;> omega

theorem transition_writeWindow {width : Width} {n : Nat}
    (hev : s.events = .access (.write off width v) :: s.events.tail) (hlo : wmemWindow ≤ off.toNat)
    (hn : width.bytes = some n) (ha : off.toNat % n = 0) :
    Transition s ((s.popped.writeWindow hw (off.toNat - wmemWindow) n v).answer .written) := by
  have next : wmemWriteNext s := ⟨off, width, v, _, n, hev, hlo, hn, ha⟩
  rcases Bool.eq_false_or_eq_true s.busy with hb | hb
  · rw [writeWindow_busy _ _ (wmemOffset_lt off) (by exact hb)]
    exact .lostWrite hb (.inl next)
  · rw [writeWindow_idle _ _ (wmemOffset_lt off) (by exact hb)]
    exact .wmemWrite hb next _ _ (by rw [length_toLE]; exact wmemAccess_fits hlo hn ha)

theorem transition_afterReadWindow (a : Nat) (r : Response) :
    Transition s ((s.popped.afterReadWindow hw a).answer r) := by
  unfold State.afterReadWindow
  split
  · exact .quiet r (s.frees + 1)
  · exact .quiet r s.frees

end

theorem transition_access {s : State} {a : Access} (hev : s.events = .access a :: s.events.tail) :
    Transition s (s.popped.access hw a) := by
  cases a with
  | read off width =>
    cases ht : takenBytes off.toNat width with
    | none =>
      rw [access_read_not_taken ht]
      exact .quiet .busError s.frees
    | some n =>
      obtain ⟨hn, ha, hreg⟩ := (takenBytes_eq_some _ _ _).mp ht
      by_cases hlo : wmemWindow ≤ off.toNat
      · rw [access_read_window hlo hn ha]
        exact transition_afterReadWindow _ _
      · obtain rfl : width = .word := hreg.resolve_left hlo
        obtain rfl : 4 = n := Option.some.inj hn
        rw [access_read_register ha (by omega)]
        exact .quiet _ s.frees
  | write off width v =>
    cases ht : takenBytes off.toNat width with
    | none =>
      rw [access_write_not_taken v ht]
      exact .quiet .busError s.frees
    | some n =>
      obtain ⟨hn, ha, hreg⟩ := (takenBytes_eq_some _ _ _).mp ht
      by_cases hlo : wmemWindow ≤ off.toNat
      · rw [access_write_window v hlo hn ha]
        exact transition_writeWindow hev hlo hn ha
      · obtain rfl : width = .word := hreg.resolve_left hlo
        obtain rfl : 4 = n := Option.some.inj hn
        rw [access_write_register v ha (by omega)]
        exact transition_writeReg hev

/-- The engine's turn when it comes next, idle or not. -/
theorem transition_engineTurn {s t : State} (hev : s.events = [] ∨ ∃ rest, s.events = .engine :: rest)
    (h : engineTurn s.popped = .next t) : Transition s t := by
  unfold engineTurn at h
  split at h
  next hb => exact .engine ⟨hb, hev⟩ h
  next =>
    cases h
    exact .quiet s.response s.frees

/-- Every step is one of the transitions. -/
theorem transition_of_step {s t : State} (h : step s = .next t) : Transition s t := by
  unfold step at h
  split at h
  next hev =>
    refine transition_engineTurn (.inl hev) ?_
    rwa [State.popped_of_no_event hev]
  next e rest hev =>
    obtain rfl : rest = s.events.tail := by rw [hev]; rfl
    cases e with
    | access a =>
      cases h
      exact transition_access hev
    | engine => exact transition_engineTurn (.inr ⟨_, hev⟩) h
    | resetInput =>
      cases h
      have ht := transition_resetPowered (.inr ⟨_, hev⟩) s.popped.response
      rwa [resetPowered_answer_response] at ht
    | powerOn =>
      cases h
      exact .powerOn ⟨_, hev⟩

end Sys2Proof.Machine

/-! SUPPORT. How a command in flight ends: with an error or with its outputs written, and in both cases with
consistent STATUS fields and WMEM in its canonical form. -/

namespace Sys2Proof.Machine

/-! ### The causes of an error -/

/-- An error names an ARG register only for LENGTH and BOUNDS (R220). -/
def CmdError.argJustified (e : CmdError) : Prop := e.arg = 0 ∨ e.code = .length ∨ e.code = .bounds

theorem argJustified_of_checkDesc {P : Config.Params} {k : Fin 6} {f : Option Nat} {d : Desc} {e : CmdError}
    (h : checkDesc P k f d = some e) : e.argJustified := by
  unfold checkDesc at h
  split at h
  · cases h
    exact .inr (.inl rfl)
  · split at h <;> cases h
    exact .inr (.inr rfl)

theorem argJustified_of_checkOperands {P : Config.Params} {i : Instr} {args : Vector Word 6} {e : CmdError}
    (h : checkOperands P i args = some e) : e.argJustified := by
  obtain ⟨k, -, hk⟩ := List.exists_of_findSome?_eq_some h
  unfold checkOperand at hk
  split at hk
  · exact argJustified_of_checkDesc hk
  · exact argJustified_of_checkDesc hk
  · cases hk
  · cases hk

theorem argJustified_ofDecode (e : DecodeError) : (CmdError.ofDecode e).argJustified := by
  cases e <;> exact .inl rfl

theorem ErrorCode.toByte_bounds (c : ErrorCode) : 1 ≤ c.toByte.toNat ∧ c.toByte.toNat ≤ 5 := by
  cases c <;> decide

/-! ### How a command ends -/

/-- Each output ends inside WMEM. -/
def outputsFit (args : Vector Word 6) (outs : List (Fin 6 × Bytes)) : Prop :=
  ∀ o ∈ outs, (descOf args[o.1]).addr + o.2.length ≤ hw.wmemBytes

/-- Outputs as long as their checked descriptors end inside WMEM (R95). -/
theorem outputsMatch.fit {i : Instr} {args : Vector Word 6} {outs : List (Fin 6 × Bytes)}
    (hm : outputsMatch i args outs) (hc : checkOperands hw i args = none) : outputsFit args outs := by
  intro o ho
  obtain ⟨f, hrole, hlen⟩ := hm o ho
  rw [hlen]
  exact (output_of_checkOperands hc hrole).2

/-- The ends of a command in flight, up to the answers it has drawn from the entropy source. -/
inductive CommandEnd (s : State) : State → Prop
  | error (entropy : List (Option (Vector Byte 32))) (draws : Nat) (e : CmdError) (he : e.argJustified) :
      CommandEnd s (({ s with entropy := entropy, draws := draws } : State).raise e)
  | finish (entropy : List (Option (Vector Byte 32))) (draws : Nat) (outs : List (Fin 6 × Bytes)) (r : Bool)
      (hfit : outputsFit s.args outs) :
      CommandEnd s (({ s with entropy := entropy, draws := draws } : State).finish outs r)

theorem exec_ends (i : Instr) (s : State) : ∃ t, exec i s = .next t ∧ CommandEnd s t := by
  cases hc : checkOperands hw i s.args with
  | some e =>
    exact ⟨_, exec_of_check_some hc, .error s.entropy s.draws e (argJustified_of_checkOperands hc)⟩
  | none =>
    obtain ⟨outs, r, he, hm, -⟩ | ⟨-, -, he⟩ := exec_of_check_none hc
    · refine ⟨_, he, ?_⟩
      cases i with
      | genr => exact .finish s.entropy.tail (s.draws + 1) outs r (hm.fit hc)
      | _ => exact .finish s.entropy s.draws outs r (hm.fit hc)
    · exact ⟨_, he, .error s.entropy.tail (s.draws + 1) ⟨.entropy, 0⟩ (.inl rfl)⟩

theorem perform_ends (s : State) : ∃ t, perform s = .next t ∧ CommandEnd s t := by
  unfold perform
  split
  · exact exec_ends _ s
  · exact ⟨_, rfl, .error s.entropy s.draws _ (argJustified_ofDecode _)⟩

theorem commandEnd_of_perform {s t : State} (h : perform s = .next t) : CommandEnd s t := by
  obtain ⟨u, hu, hend⟩ := perform_ends s
  obtain rfl : u = t := by simpa [hu] using h
  exact hend

namespace CommandEnd
variable {s t : State}

theorem irqen_eq (h : CommandEnd s t) : t.irqen = s.irqen := by cases h <;> rfl

theorem busy_eq (h : CommandEnd s t) : t.busy = false := by cases h <;> rfl

theorem done_eq (h : CommandEnd s t) : t.done = true := by cases h <;> rfl

theorem wbusy_eq (h : CommandEnd s t) : t.wbusy = s.wbusy := by cases h <;> rfl

/-- A command leaves WMEM in its canonical form. -/
theorem wf_wmem (h : CommandEnd s t) (hs : Memory.wf s.wmem = true) : Memory.wf t.wmem = true := by
  cases h with
  | error => exact hs
  | finish entropy draws outs r hfit =>
    refine Memory.wf_writeList hs fun w hmem => ?_
    obtain ⟨o, ho, rfl⟩ := List.mem_map.mp hmem
    exact hfit o ho

end CommandEnd

/-! ### The STATUS fields stay consistent -/

theorem statusConsistent_raise (s : State) {e : CmdError} (he : e.argJustified) :
    statusConsistent (s.raise e) := by
  refine ⟨by simp, by simp, fun _ => ⟨rfl, e.code.toByte_bounds⟩, ?_, fun hne => ?_⟩
  · rw [State.raise_errarg, BitVec.toNat_ofNat]
    omega
  · obtain harg | hcode | hcode := he
    · exact absurd (by simp [harg]) hne
    · exact .inl (by simp [hcode, ErrorCode.toByte])
    · exact .inr (by simp [hcode, ErrorCode.toByte])

theorem statusConsistent_of_no_error {s : State}
    (hb : s.busy = true → s.done = false ∧ s.result = false) (he : s.err = false)
    (hc : s.errcode = 0) (ha : s.errarg = 0) : statusConsistent s := by
  simp_all [statusConsistent]

theorem machineInv_resetState (s : State) {mem : Memory} (frees : Nat) (h : Memory.wf mem = true) :
    MachineInv (resetState s mem frees) :=
  ⟨h, statusConsistent_of_no_error (by simp [resetState]) rfl rfl rfl⟩

theorem statusConsistent_acceptStart (s : State) : statusConsistent s.acceptStart :=
  statusConsistent_of_no_error (by simp) rfl rfl rfl

theorem statusConsistent_writeStatus {s : State} (v : Word) (h : statusConsistent s) :
    statusConsistent (s.writeStatus v) := by
  obtain ⟨hbusy, hrest⟩ := h
  refine ⟨fun hb => ?_, hrest⟩
  obtain ⟨hdone, herr⟩ := hbusy hb
  exact ⟨by simp [hdone], herr⟩

theorem CommandEnd.statusConsistent {s t : State} (h : CommandEnd s t) : statusConsistent t := by
  cases h with
  | error entropy draws e he => exact statusConsistent_raise _ he
  | finish entropy draws outs r hfit => exact statusConsistent_of_no_error (by simp [State.finish]) rfl rfl rfl

/-! ### A reset leaves WMEM in its canonical form -/

theorem wf_scrambleOutputs {s : State} (h : Memory.wf s.wmem = true) :
    Memory.wf (s.scrambleOutputs hw).wmem = true := by
  refine Memory.wf_writeList h fun w hmem => ?_
  obtain ⟨d, hd, rfl⟩ := List.mem_map.mp hmem
  rw [length_freeBytes]
  exact abortedBuffers_fit hd

theorem wf_freshMemory (s : State) :
    Memory.wf (Memory.writeBytes [] 0 (s.freeBytes 0 hw.wmemBytes)) = true :=
  Memory.wf_writeBytes Memory.wf_nil (by simp)

end Sys2Proof.Machine

/-! SUPPORT. The statements about every step of the state (10_state.md R20 to R32): the invariant, and what
changes STATUS, IRQEN and WMEM. -/

namespace Sys2Proof.Machine

/-- Every transition keeps the invariant. -/
theorem Transition.machineInv {s t : State} (ht : Transition s t) (h : MachineInv s) : MachineInv t := by
  obtain ⟨hmem, hstatus⟩ := h
  cases ht with
  | engine _ hperf =>
    have hend := commandEnd_of_perform hperf
    exact ⟨hend.wf_wmem hmem, hend.statusConsistent⟩
  | idleReset => exact machineInv_resetState s s.frees hmem
  | abort => exact machineInv_resetState s (s.frees + 1) (wf_scrambleOutputs hmem)
  | powerOn => exact machineInv_resetState s (s.frees + 1) (wf_freshMemory s)
  | start => exact ⟨hmem, statusConsistent_acceptStart s⟩
  | statusWrite v => exact ⟨hmem, statusConsistent_writeStatus v hstatus⟩
  | wmemWrite _ _ a v hfit => exact ⟨Memory.wf_writeBytes hmem hfit, hstatus⟩
  | quiet | lostStart | irqenWrite | operandWrite | lostWrite => exact ⟨hmem, hstatus⟩

/-- Settles O9: every step is a transition, and each transition keeps the invariant. -/
theorem everyStepKeepsTheInvariant : Obligations.EveryStepKeepsTheInvariant := by
  intro s t hinv hstep
  exact (transition_of_step hstep).machineInv hinv

/-- Settles O10. -/
theorem resetStateIsIdleAndMeetsTheInvariant : Obligations.ResetStateIsIdleAndMeetsTheInvariant := by
  refine ⟨⟨Memory.wf_nil, statusConsistent_of_no_error (by simp [State.reset]) rfl rfl rfl⟩,
    rfl, rfl, rfl, rfl, fun k => ?_⟩
  fin_cases k <;> rfl

/-- Settles O12: of the transitions, only five touch WMEM. -/
theorem wmemChangesOnlyByCommandHostWriteOrReset :
    Obligations.WmemChangesOnlyByCommandHostWriteOrReset := by
  intro s t hstep hne
  cases transition_of_step hstep with
  | engine h => exact .inl h
  | wmemWrite hb h => exact .inr (.inl ⟨hb, h⟩)
  | abort hb h => exact .inr (.inr (.inl ⟨hb, h⟩))
  | powerOn h => exact .inr (.inr (.inr h))
  | quiet | idleReset | start | lostStart | irqenWrite | statusWrite | operandWrite | lostWrite =>
    exact absurd rfl hne

/-! ### What changes each STATUS field and IRQEN -/

theorem registerWriteNext.imp {s : State} {off : BitVec 17} {p q : Word → Prop}
    (h : registerWriteNext s off p) (hpq : ∀ v, p v → q v) : registerWriteNext s off q := by
  obtain ⟨v, rest, hev, hp⟩ := h
  exact ⟨v, rest, hev, hpq v hp⟩

/-- The next event is one of the resets. -/
def resetNext (s : State) : Prop := poweredResetNext s ∨ powerOnNext s

namespace Transition
variable {s t : State}

theorem irqen_changed (ht : Transition s t) (hne : t.irqen ≠ s.irqen) :
    resetNext s ∨ registerWriteNext s 0x008 fun v => v[1] = false := by
  cases ht with
  | engine _ hperf => exact absurd (commandEnd_of_perform hperf).irqen_eq hne
  | idleReset _ h | abort _ h => exact .inl (.inl h)
  | powerOn h => exact .inl (.inr h)
  | start h => exact .inr (h.2.imp fun _ hv => hv.2)
  | lostStart _ h | irqenWrite h => exact .inr (h.imp fun _ hv => hv.2)
  | quiet | statusWrite | operandWrite | wmemWrite | lostWrite => exact absurd rfl hne

theorem busy_set (ht : Transition s t) (hb : t.busy = true) : s.busy = true ∨ startNext s := by
  cases ht with
  | engine h => exact .inl h.1
  | start h => exact .inr h
  | idleReset | abort | powerOn => cases hb
  | quiet | lostStart | irqenWrite | statusWrite | operandWrite | wmemWrite | lostWrite => exact .inl hb

theorem busy_cleared (ht : Transition s t) (hb : t.busy = false) :
    s.busy = false ∨ engineNext s ∨ resetNext s := by
  cases ht with
  | engine h => exact .inr (.inl h)
  | idleReset _ h | abort _ h => exact .inr (.inr (.inl h))
  | powerOn h => exact .inr (.inr (.inr h))
  | start => cases hb
  | quiet | lostStart | irqenWrite | statusWrite | operandWrite | wmemWrite | lostWrite => exact .inl hb

theorem done_set (ht : Transition s t) (hd : t.done = true) : s.done = true ∨ engineNext s := by
  cases ht with
  | engine h => exact .inr h
  | idleReset | abort | powerOn | start => cases hd
  | statusWrite v => exact .inl (Bool.and_eq_true_iff.mp hd).1
  | quiet | lostStart | irqenWrite | operandWrite | wmemWrite | lostWrite => exact .inl hd

theorem done_cleared (ht : Transition s t) (hd : t.done = false) :
    s.done = false ∨ startNext s ∨ resetNext s
      ∨ (s.busy = false ∧ registerWriteNext s 0x00C fun v => v[1] = true) := by
  cases ht with
  | engine _ hperf => exact absurd ((commandEnd_of_perform hperf).done_eq.symm.trans hd) (by decide)
  | start h => exact .inr (.inl h)
  | idleReset _ h | abort _ h => exact .inr (.inr (.inl (.inl h)))
  | powerOn h => exact .inr (.inr (.inl (.inr h)))
  | statusWrite v h =>
    have hcases : s.done = false ∨ v[1] = true ∧ s.busy = false := by simpa [or_iff_not_imp_left] using hd
    exact hcases.imp_right fun ⟨h1, hb⟩ => .inr (.inr ⟨hb, h.imp fun w hw => hw ▸ h1⟩)
  | quiet | lostStart | irqenWrite | operandWrite | wmemWrite | lostWrite => exact .inl hd

/-- ERR, RESULT, ERRCODE and ERRARG change only by the engine, a start or a reset. -/
theorem error_fields_changed (ht : Transition s t)
    (hne : t.err ≠ s.err ∨ t.result ≠ s.result ∨ t.errcode ≠ s.errcode ∨ t.errarg ≠ s.errarg) :
    engineNext s ∨ startNext s ∨ resetNext s := by
  cases ht with
  | engine h => exact .inl h
  | start h => exact .inr (.inl h)
  | idleReset _ h | abort _ h => exact .inr (.inr (.inl h))
  | powerOn h => exact .inr (.inr (.inr h))
  | quiet | lostStart | irqenWrite | statusWrite | operandWrite | wmemWrite | lostWrite => simp at hne

theorem wbusy_set (ht : Transition s t) (hw : t.wbusy = true) :
    s.wbusy = true ∨ (s.busy = true ∧ lockedWriteNext s) := by
  cases ht with
  | engine _ hperf => exact .inl ((commandEnd_of_perform hperf).wbusy_eq.symm.trans hw)
  | idleReset | abort | powerOn => cases hw
  | lostStart hb h => exact .inr ⟨hb, .inr (.inr h)⟩
  | lostWrite hb h => exact .inr ⟨hb, h⟩
  | statusWrite v => exact .inl (Bool.and_eq_true_iff.mp hw).1
  | quiet | start | irqenWrite | operandWrite | wmemWrite => exact .inl hw

theorem wbusy_cleared (ht : Transition s t) (hw : t.wbusy = false) :
    s.wbusy = false ∨ resetNext s ∨ registerWriteNext s 0x00C fun v => v[4] = true := by
  cases ht with
  | engine _ hperf => exact .inl ((commandEnd_of_perform hperf).wbusy_eq.symm.trans hw)
  | idleReset _ h | abort _ h => exact .inr (.inl (.inl h))
  | powerOn h => exact .inr (.inl (.inr h))
  | lostStart | lostWrite => cases hw
  | statusWrite v h =>
    have hcases : s.wbusy = false ∨ v[4] = true := by simpa [or_iff_not_imp_left] using hw
    exact hcases.imp_right fun h4 => .inr (h.imp fun w hw => hw ▸ h4)
  | quiet | start | irqenWrite | operandWrite | wmemWrite => exact .inl hw

end Transition

/-- Settles O11: field by field over the transitions; a host that waits sends no write that is lost. -/
theorem statusChangesOnlyByTheListedEvents : Obligations.StatusChangesOnlyByTheListedEvents := by
  intro s t hstep
  have ht := transition_of_step hstep
  refine ⟨ht.irqen_changed, ht.busy_set, ht.busy_cleared, ht.done_set, ht.done_cleared,
    ht.error_fields_changed, ht.wbusy_set, ht.wbusy_cleared, fun hwaits hset => ?_⟩
  exact (ht.wbusy_set hset).resolve_right fun ⟨hb, hlocked⟩ => (hwaits hb).1 hlocked

end Sys2Proof.Machine

/-! SUPPORT. The statements about single register accesses (10_state.md R22 to R32) and GENR's completion. -/

namespace Sys2Proof.Machine

/-! ### Constant and reserved registers -/

/-- Outside CTRL to ARG5 an offset is ID, PARAM or reserved (R23, R24, R29). -/
theorem regAt_constant {off : Nat} (ha : off % 4 = 0) (h : off ≤ 0x004 ∨ 0x02C ≤ off) :
    (off = 0 ∧ regAt off = .id) ∨ (off = 4 ∧ regAt off = .param)
      ∨ (0x02C ≤ off ∧ regAt off = .reserved) := by
  obtain rfl | rfl | hres : off = 0 ∨ off = 4 ∨ 0x02C ≤ off := by omega
  · exact .inl ⟨rfl, rfl⟩
  · exact .inr (.inl ⟨rfl, rfl⟩)
  · exact .inr (.inr ⟨hres, regAt_reserved hres⟩)

theorem paramWord_hw : paramWord hw = 0x01104310 := by decide

/-- PARAM's four bytes for every size of WMEM (R24). -/
theorem paramWord_fields (P : Config.Params) :
    (paramWord P).extractLsb' 0 8 = 16 ∧ (paramWord P).extractLsb' 8 8 = 67
      ∧ ((paramWord P).extractLsb' 16 8).toNat = P.wmemSize.log2 ∧ (paramWord P).extractLsb' 24 8 = 1 := by
  unfold paramWord
  cases P.wmemSize <;> decide

/-- Settles O39: by the three kinds of register outside CTRL to ARG5. -/
theorem constantAndReservedRegistersIgnoreWrites :
    Obligations.ConstantAndReservedRegistersIgnoreWrites := by
  refine ⟨fun s rest off v ha hr hout => ?_, fun P s => ?_⟩
  · obtain ⟨hoff, hreg⟩ | ⟨hoff, hreg⟩ | ⟨hoff, hreg⟩ := regAt_constant ha hout
    · rw [step_write_register s rest v hreg ha hr, step_read_register s rest hreg ha hr, if_pos hoff]
      exact ⟨rfl, rfl⟩
    · rw [step_write_register s rest v hreg ha hr, step_read_register s rest hreg ha hr,
        if_neg (by omega), if_pos hoff, ← paramWord_hw]
      exact ⟨rfl, rfl⟩
    · rw [step_write_register s rest v hreg ha hr, step_read_register s rest hreg ha hr,
        if_neg (by omega), if_neg (by omega)]
      exact ⟨rfl, rfl⟩
  · obtain ⟨h16, h67, hlog, hrev⟩ := paramWord_fields P
    obtain ⟨hlo, hhi⟩ := wmemBytes_bounds P
    refine ⟨h16, h67, ?_, hrev, hlo, hhi⟩
    rw [State.readReg, hlog]
    exact P.wmemSize.bytes_eq_two_pow.symm

/-! ### Reads -/

theorem ctrlWord_eq (s : State) : s.ctrlWord = if s.irqen then 4 else 0 := by
  unfold State.ctrlWord
  cases s.irqen <;> rfl

/-- ARGk stands at an aligned offset of the register window (R27). -/
theorem argOffset_spec (k : Fin 6) :
    regAt (BitVec.ofNat 17 (0x014 + 4 * k.val)).toNat = .arg k
      ∧ (BitVec.ofNat 17 (0x014 + 4 * k.val)).toNat % 4 = 0
      ∧ (BitVec.ofNat 17 (0x014 + 4 * k.val)).toNat < wmemWindow := by
  rw [toNat_argOffset, regAt_eq_arg]
  unfold wmemWindow
  omega

/-- Settles O40: each register's offset, read. -/
theorem registerReadsHaveNoSideEffect : Obligations.RegisterReadsHaveNoSideEffect := by
  intro s rest k
  obtain ⟨hreg, ha, hr⟩ := argOffset_spec k
  refine ⟨?_, ?_, ?_, step_read_register s rest hreg ha hr⟩
  · rw [step_read_register s rest (regAt_eq_ctrl.mpr rfl) (by decide) (by decide), ← ctrlWord_eq]
    rfl
  · exact step_read_register s rest (regAt_eq_status.mpr rfl) (by decide) (by decide)
  · exact step_read_register s rest (regAt_eq_cmd.mpr rfl) (by decide) (by decide)

/-! ### The word of STATUS -/

theorem testBit_of_div_mod {n i : Nat} {b : Bool} (h : n / 2 ^ i % 2 = b.toNat) : n.testBit i = b := by
  rw [Nat.testBit_eq_decide_div_mod_eq, h]
  cases b <;> rfl

theorem statusFields_bounds (s : State) :
    s.busy.toNat ≤ 1 ∧ s.done.toNat ≤ 1 ∧ s.err.toNat ≤ 1 ∧ s.result.toNat ≤ 1 ∧ s.wbusy.toNat ≤ 1
      ∧ s.errcode.toNat < 2 ^ 8 ∧ s.errarg.toNat < 2 ^ 3 :=
  ⟨s.busy.toNat_le, s.done.toNat_le, s.err.toNat_le, s.result.toNat_le, s.wbusy.toNat_le,
    s.errcode.isLt, s.errarg.isLt⟩

/-- STATUS as a number: the fields stand clear of one another, so the sum does not wrap (R26). -/
theorem toNat_statusWord (s : State) : s.statusWord.toNat =
    s.busy.toNat + s.done.toNat * 2 ^ 1 + s.err.toNat * 2 ^ 2 + s.result.toNat * 2 ^ 3
      + s.wbusy.toNat * 2 ^ 4 + s.errcode.toNat * 2 ^ 8 + s.errarg.toNat * 2 ^ 16 := by
  have hbounds := statusFields_bounds s
  rw [State.statusWord, BitVec.toNat_ofNat]
  omega

theorem getElem_eq_of_div_mod {w : Word} {i : Nat} {hi : i < 32} {b : Bool}
    (h : w.toNat / 2 ^ i % 2 = b.toNat) : w[i] = b := by
  rw [BitVec.getElem_eq_testBit_toNat]
  exact testBit_of_div_mod h

theorem extractLsb'_eq_of_div_mod {w : Word} {i n : Nat} {x : BitVec n}
    (h : w.toNat / 2 ^ i % 2 ^ n = x.toNat) : w.extractLsb' i n = x := by
  apply BitVec.eq_of_toNat_eq
  rw [BitVec.extractLsb'_toNat, Nat.shiftRight_eq_div_pow, h]

/-- Settles O41: each field is a digit of the sum that makes the word. -/
theorem statusWordHoldsTheFields : Obligations.StatusWordHoldsTheFields := by
  intro s
  have hword := toNat_statusWord s
  have hbounds := statusFields_bounds s
  refine ⟨getElem_eq_of_div_mod ?_, getElem_eq_of_div_mod ?_, getElem_eq_of_div_mod ?_,
    getElem_eq_of_div_mod ?_, getElem_eq_of_div_mod ?_, extractLsb'_eq_of_div_mod ?_,
    extractLsb'_eq_of_div_mod ?_, extractLsb'_eq_of_div_mod ?_, extractLsb'_eq_of_div_mod ?_⟩
  all_goals simp only [hword, BitVec.ofNat_eq_ofNat, BitVec.toNat_ofNat]; omega

/-! ### Writes -/

/-- Settles O35. -/
theorem ctrlWriteWithoutStartSetsIrqenOnly : Obligations.CtrlWriteWithoutStartSetsIrqenOnly := by
  intro s rest v h0 h1
  rw [step_write_register s rest v (regAt_eq_ctrl.mpr rfl) (by decide) (by decide),
    writeReg_ctrl_irqen h0 h1]
  rfl

/-- Settles O36. -/
theorem softResetOfIdleBlockKeepsWmem : Obligations.SoftResetOfIdleBlockKeepsWmem := by
  intro s rest v h1 hb
  rw [step_write_register s rest v (regAt_eq_ctrl.mpr rfl) (by decide) (by decide),
    writeReg_ctrl_reset h1, resetPowered_idle (by exact hb)]
  rfl

/-- What a STATUS write leaves of a flag it may clear, in the form of the statements. -/
theorem and_not_eq_ite (flag clear : Bool) : (flag && !clear) = if clear = true then false else flag := by
  cases clear <;> simp

/-- Settles O42. -/
theorem statusWriteClearsDoneAndWbusy : Obligations.StatusWriteClearsDoneAndWbusy := by
  intro s rest v
  rw [step_write_register s rest v (regAt_eq_status.mpr rfl) (by decide) (by decide), writeReg_status]
  have hdone : (s.done && !(v[1] && !s.busy)) = if v[1] = true ∧ s.busy = false then false else s.done := by
    rw [and_not_eq_ite]
    simp
  rw [← hdone, ← and_not_eq_ite]
  rfl

/-- Settles O43. -/
theorem cmdAndArgWritesStoreWhenIdle : Obligations.CmdAndArgWritesStoreWhenIdle := by
  intro s rest v k hb
  obtain ⟨hreg, ha, hr⟩ := argOffset_spec k
  constructor
  · rw [step_write_register s rest v (regAt_eq_cmd.mpr rfl) (by decide) (by decide),
      writeReg_cmd_idle (by exact hb)]
    rfl
  · rw [step_write_register s rest v hreg ha hr, writeReg_arg_idle k (by exact hb)]
    rfl

/-- Settles O44: the locked registers, then the WMEM window. -/
theorem writesAreLostWhileBusy : Obligations.WritesAreLostWhileBusy := by
  rintro s rest off width v hb (⟨hlo, hhi, ha, rfl⟩ | ⟨hlo, n, hn, ha⟩)
  · rw [step_write_register s rest v rfl ha (by unfold wmemWindow; omega),
      writeReg_locked (by exact hb) (regAt_locked hlo hhi ha)]
    rfl
  · rw [step_access rfl, access_write_window v hlo hn ha,
      writeWindow_busy n v (wmemOffset_lt off) (by exact hb)]
    rfl

/-! ### The interrupt -/

theorem resetPowered_irqen (P : Config.Params) (s : State) : (s.resetPowered P).irqen = false := by
  unfold State.resetPowered
  split <;> rfl

theorem requestStart_irqen (s : State) : s.requestStart.irqen = s.irqen := by
  unfold State.requestStart
  split <;> rfl

/-- After a CTRL write IRQEN is bit 2 of the value, or 0 if it was a soft reset (R25). -/
theorem writeReg_ctrl_irqen_eq (P : Config.Params) (s : State) (v : Word) :
    (s.writeReg P .ctrl v).irqen = (!v[1] && v[2]) := by
  cases h1 : v[1] with
  | true => rw [writeReg_ctrl_reset h1, resetPowered_irqen]; rfl
  | false =>
    cases h0 : v[0] with
    | true => rw [writeReg_ctrl_start h0 h1, requestStart_irqen]; rfl
    | false => rw [writeReg_ctrl_irqen h0 h1]; rfl

/-- Settles O49: completion sets DONE and keeps IRQEN; the two writes clear one of them. -/
theorem irqFollowsCompletion : Obligations.IrqFollowsCompletion := by
  refine ⟨fun s t h hstep => ?_, fun s t rest v hb h1 hstep => ?_, fun s t rest v h2 hstep => ?_⟩
  · rw [step_of_engineNext h] at hstep
    have hend := commandEnd_of_perform hstep
    rw [State.irq, hend.done_eq, hend.irqen_eq, Bool.and_true]
  · rw [step_write_register s rest v (regAt_eq_status.mpr rfl) (by decide) (by decide),
      writeReg_status] at hstep
    cases hstep
    simp [State.irq, h1, hb]
  · rw [step_write_register s rest v (regAt_eq_ctrl.mpr rfl) (by decide) (by decide)] at hstep
    cases hstep
    rw [State.irq, State.answer_irqen, writeReg_ctrl_irqen_eq, h2, Bool.and_false, Bool.false_and]

/-! ### GENR -/

theorem checkOperand_of_ignored {P : Config.Params} {i : Instr} {args : Vector Word 6} {k : Fin 6}
    (hrole : (operandRoles i)[k] = .ignored) : checkOperand P i args k = none := by
  rw [checkOperand, hrole]

theorem checkOperand_of_bufferOf {i : Instr} {args : Vector Word 6} {k : Fin 6} {n : Nat}
    (hrole : (operandRoles i)[k] = .output (some n)) (h : bufferOf args[k] n) :
    checkOperand hw i args k = none := by
  rw [checkOperand, hrole]
  obtain ⟨hlen, hfit⟩ := h
  exact (checkDesc_eq_none _ _ _).mpr ⟨decide_eq_true hlen, decide_eq_true hfit⟩

theorem checkOperands_genr {args : Vector Word 6} (h0 : bufferOf args[0] 2208) (h1 : bufferOf args[1] 32) :
    checkOperands hw .genr args = none := by
  rw [checkOperands_eq_none]
  intro k
  match k with
  | 0 => exact checkOperand_of_bufferOf rfl h0
  | 1 => exact checkOperand_of_bufferOf rfl h1
  | 2 | 3 | 4 | 5 => exact checkOperand_of_ignored rfl

/-- Settles O28. -/
theorem genrWritesTheKeyPairOfItsDraw : Obligations.GenrWritesTheKeyPairOfItsDraw := by
  intro s e h0 h1 hdraw
  exact exec_genr_of_draw (checkOperands_genr h0 h1) hdraw

end Sys2Proof.Machine

/-! SUPPORT. The statements about the WMEM window (20_memory.md R51 to R58): little-endian data, accesses past
the end of WMEM, and bus errors. -/

namespace Sys2Proof.Machine

/-! ### Little-endian integers digit by digit (R8) -/

/-- The value of a byte string in base 256, least significant byte first. -/
theorem fromLE_map_range (f : Nat → Byte) (n : Nat) :
    fromLE ((List.range n).map f) = ((List.range n).map fun k => 256 ^ k * (f k).toNat).sum := by
  induction n generalizing f with
  | zero => rfl
  | succ n ih =>
    have htail := ih fun k => f (k + 1)
    simp only [List.range_succ_eq_map, List.map_cons, List.map_map, List.sum_cons, Function.comp_def,
      fromLE, Nat.succ_eq_add_one, pow_succ', mul_assoc, List.sum_map_mul_left, pow_zero, one_mul] at htail ⊢
    rw [htail]

theorem getElem_toLE {v n k : Nat} (h : k < (toLE v n).length) :
    (toLE v n)[k] = BitVec.ofNat 8 (v / 256 ^ k) := by
  induction n generalizing v k with
  | zero => simp at h
  | succ n ih =>
    cases k with
    | zero => simp [toLE]
    | succ k => simp [toLE, ih, Nat.div_div_eq_div_mul, pow_succ']

/-! ### The window -/

/-- An offset past the end of WMEM is one of the window. -/
theorem pastEnd_iff {P : Config.Params} {off : Nat} :
    wmemWindow + P.wmemBytes ≤ off ↔ wmemWindow ≤ off ∧ P.wmemBytes ≤ off - wmemWindow := by
  omega

/-- Settles O45. -/
theorem wmemWindowReadsLittleEndian : Obligations.WmemWindowReadsLittleEndian := by
  refine ⟨fun s rest off width n hb hlo hn ha => ?_, fun P s off width n hend hn ha => ?_⟩
  · rw [step_access rfl, access_read_window hlo hn ha, afterReadWindow_idle (by exact hb),
      readWindow_idle n (wmemOffset_lt off) (by exact hb), Memory.readBytes, fromLE_map_range]
    rfl
  · obtain ⟨hlo, hpast⟩ := pastEnd_iff.mp hend
    rw [access_read_window hlo hn ha, afterReadWindow_past hpast, readWindow_past n hpast]
    rfl

/-- Settles O46. -/
theorem wmemWindowWritesLittleEndian : Obligations.WmemWindowWritesLittleEndian := by
  refine ⟨fun s rest off width v n hb hlo hn ha => ?_, fun P s off width v n hend hn ha => ?_⟩
  · refine ⟨Memory.writeBytes s.wmem (off.toNat - wmemWindow) (toLE v.toNat n), ?_, fun k hk => ?_,
      fun a hout => ?_⟩
    · rw [step_access rfl, access_write_window v hlo hn ha,
        writeWindow_idle n v (wmemOffset_lt off) (by exact hb)]
      rfl
    · have hlen : k < (toLE v.toNat n).length := by rwa [length_toLE]
      exact (Memory.read_writeBytes_inside _ _ _ k hlen).trans (getElem_toLE hlen)
    · exact Memory.read_writeBytes_outside _ _ _ a (by rwa [length_toLE])
  · obtain ⟨hlo, hpast⟩ := pastEnd_iff.mp hend
    rw [access_write_window v hlo hn ha, writeWindow_past n v hpast]
    rfl

/-! ### Bus errors -/

/-- Settles O47: these are exactly the accesses the block does not take. -/
theorem busErrorChangesNoState : Obligations.BusErrorChangesNoState := by
  intro s rest off width v hbad
  have hnone : takenBytes off.toNat width = none := (takenBytes_eq_none _ _).mpr hbad
  rw [step_access rfl, step_access rfl, access_read_not_taken hnone, access_write_not_taken v hnone]
  exact ⟨rfl, rfl, rfl⟩

end Sys2Proof.Machine

/-! SUPPORT. The command word field by field, and the statements about it (30_encoding.md R71 to R79): an
encoding is determined by its fields, the decoder reads the same fields, and a word that does not decode ends
its command in error. -/

namespace Sys2Proof

/-! ### The two formats (R71, R72) -/

/-- The commands of format B, which have no immediate (R71). -/
def formatBCommands : List Instr :=
  [.nop, .prf, .fstep, .expand, .expbases, .hmsg, .encode, .encmsg, .gen, .genr, .sign, .pksig, .verify]

theorem mem_formatBCommands_or_chain (i : Instr) :
    i ∈ formatBCommands ∨ ∃ start steps, i = .chain start steps := by
  cases i with
  | chain start steps => exact .inr ⟨start, steps, rfl⟩
  | _ => exact .inl (by decide)

theorem chain_not_mem_formatBCommands (start steps : Nat) : Instr.chain start steps ∉ formatBCommands := by
  simp [formatBCommands]

/-- The opcode bytes of format B, as numbers. -/
def formatBOpcodes : List Nat := formatBCommands.map fun i => i.opcode.toNat

theorem wellFormed_of_formatB {i : Instr} (hi : i ∈ formatBCommands) : i.wellFormed = true := by
  cases i with
  | chain start steps => exact absurd hi (chain_not_mem_formatBCommands start steps)
  | _ => rfl

theorem wellFormed_chain_iff {start steps : Nat} :
    (Instr.chain start steps).wellFormed = true ↔ start < 32 ∧ steps < 32 := by
  simp [Instr.wellFormed]

/-! ### The encoder: a command's word is the one with these fields -/

theorem toNat_field (w : Word) (lo width : Nat) :
    (w.extractLsb' lo width).toNat = w.toNat / 2 ^ lo % 2 ^ width := by
  rw [BitVec.extractLsb'_toNat, Nat.shiftRight_eq_div_pow]

theorem encode_of_formatB {i : Instr} (hi : i ∈ formatBCommands) :
    encode i = BitVec.ofNat 32 i.opcode.toNat := by
  cases i with
  | chain start steps => exact absurd hi (chain_not_mem_formatBCommands start steps)
  | _ => rfl

theorem encode_formatB_eq_iff {i : Instr} (hi : i ∈ formatBCommands) (w : Word) :
    encode i = w ↔ w.extractLsb' 0 8 = i.opcode ∧ w.extractLsb' 8 24 = 0 := by
  have hw := w.isLt
  have hop := i.opcode.isLt
  simp only [encode_of_formatB hi, BitVec.toNat_eq, toNat_field, BitVec.toNat_ofNat, BitVec.reduceToNat]
  omega

theorem encode_chain_eq_iff {start steps : Nat} (hstart : start < 32) (hsteps : steps < 32) (w : Word) :
    encode (.chain start steps) = w ↔
      w.extractLsb' 0 8 = 0x20 ∧ (w.extractLsb' 8 5).toNat = start ∧ w.extractLsb' 13 3 = 0
        ∧ (w.extractLsb' 16 5).toNat = steps ∧ w.extractLsb' 21 11 = 0 := by
  have hw := w.isLt
  simp only [encode, Instr.opcode, BitVec.toNat_eq, toNat_field, BitVec.toNat_ofNat, BitVec.reduceToNat]
  omega

/-! ### The decoder: the opcode first, then the reserved bits (R73) -/

section
variable {w : Word}

theorem decode_of_formatB {i : Instr} (hi : i ∈ formatBCommands) (h : w.extractLsb' 0 8 = i.opcode) :
    decode w = decodeFormatB w i := by
  rw [decode, h]
  cases i with
  | chain start steps => exact absurd hi (chain_not_mem_formatBCommands start steps)
  | _ => rfl

theorem decode_of_chain (h : w.extractLsb' 0 8 = 0x20) : decode w = decodeFormatK w := by
  rw [decode, h]
  rfl

/-- The opcode of every arm but CHAIN's and the last is one of format B. -/
theorem decode_of_unmapped (hB : (w.extractLsb' 0 8).toNat ∉ formatBOpcodes)
    (hK : (w.extractLsb' 0 8).toNat ≠ 0x20) : decode w = .error .illop := by
  unfold decode
  split
  case h_15 => rfl
  case h_6 h => exact absurd h hK
  all_goals
    next h =>
      rw [h] at hB
      exact absurd (by decide) hB

theorem exists_formatB_of_opcode (h : (w.extractLsb' 0 8).toNat ∈ formatBOpcodes) :
    ∃ i ∈ formatBCommands, w.extractLsb' 0 8 = i.opcode := by
  obtain ⟨i, hi, hop⟩ := List.mem_map.mp h
  exact ⟨i, hi, BitVec.eq_of_toNat_eq hop.symm⟩

/-- Everything decoding can do. -/
theorem decode_cases (w : Word) :
    (∃ i ∈ formatBCommands, w.extractLsb' 0 8 = i.opcode ∧ decode w = decodeFormatB w i)
      ∨ (w.extractLsb' 0 8 = 0x20 ∧ decode w = decodeFormatK w)
      ∨ decode w = .error .illop := by
  by_cases hB : (w.extractLsb' 0 8).toNat ∈ formatBOpcodes
  · obtain ⟨i, hi, hop⟩ := exists_formatB_of_opcode hB
    exact .inl ⟨i, hi, hop, decode_of_formatB hi hop⟩
  · by_cases hK : w.extractLsb' 0 8 = 0x20
    · exact .inr (.inl ⟨hK, decode_of_chain hK⟩)
    · exact .inr (.inr (decode_of_unmapped hB fun h => hK (BitVec.eq_of_toNat_eq h)))

theorem decodeFormatB_of_zero (i : Instr) (h : w.extractLsb' 8 24 = 0) : decodeFormatB w i = .ok i :=
  if_pos h

theorem decodeFormatB_of_ne_zero (i : Instr) (h : w.extractLsb' 8 24 ≠ 0) :
    decodeFormatB w i = .error .rsvd :=
  if_neg h

theorem decodeFormatK_of_zero (hhi : w.extractLsb' 21 11 = 0) (hmid : w.extractLsb' 13 3 = 0) :
    decodeFormatK w = .ok (.chain (w.extractLsb' 8 5).toNat (w.extractLsb' 16 5).toNat) :=
  if_pos ⟨hhi, hmid⟩

theorem decodeFormatK_of_ne_zero (h : w.extractLsb' 21 11 ≠ 0 ∨ w.extractLsb' 13 3 ≠ 0) :
    decodeFormatK w = .error .rsvd :=
  if_neg fun ⟨hhi, hmid⟩ => h.elim (· hhi) (· hmid)

theorem decodeFormatB_eq_ok {i j : Instr} (h : decodeFormatB w i = .ok j) :
    w.extractLsb' 8 24 = 0 ∧ i = j := by
  unfold decodeFormatB at h
  split at h
  next hres => exact ⟨hres, Except.ok.inj h⟩
  next => cases h

theorem decodeFormatK_eq_ok {i : Instr} (h : decodeFormatK w = .ok i) :
    w.extractLsb' 21 11 = 0 ∧ w.extractLsb' 13 3 = 0
      ∧ Instr.chain (w.extractLsb' 8 5).toNat (w.extractLsb' 16 5).toNat = i := by
  unfold decodeFormatK at h
  split at h
  next hres => exact ⟨hres.1, hres.2, Except.ok.inj h⟩
  next => cases h

end

/-! ### Encoding and decoding are inverse -/

/-- Settles O1: the fields of the encoding are those the decoder reads. -/
theorem decodeOfEncodeIsTheCommand : Obligations.DecodeOfEncodeIsTheCommand := by
  intro i hwf
  obtain hi | ⟨start, steps, rfl⟩ := mem_formatBCommands_or_chain i
  · obtain ⟨hop, hres⟩ := (encode_formatB_eq_iff hi _).mp rfl
    rw [decode_of_formatB hi hop, decodeFormatB_of_zero i hres]
  · obtain ⟨hstart, hsteps⟩ := wellFormed_chain_iff.mp hwf
    obtain ⟨hop, hstart', hmid, hsteps', hhi⟩ := (encode_chain_eq_iff hstart hsteps _).mp rfl
    rw [decode_of_chain hop, decodeFormatK_of_zero hhi hmid, hstart', hsteps']

/-- Settles O2: the opcode, the reserved bits and the immediates leave no bit of the word free. -/
theorem encodeOfDecodeIsTheWord : Obligations.EncodeOfDecodeIsTheWord := by
  intro w i h
  obtain ⟨j, hj, hop, hdec⟩ | ⟨hop, hdec⟩ | hdec := decode_cases w <;> rw [hdec] at h
  · obtain ⟨hres, rfl⟩ := decodeFormatB_eq_ok h
    exact ⟨wellFormed_of_formatB hj, (encode_formatB_eq_iff hj w).mpr ⟨hop, hres⟩⟩
  · obtain ⟨hhi, hmid, rfl⟩ := decodeFormatK_eq_ok h
    have hstart := (w.extractLsb' 8 5).isLt
    have hsteps := (w.extractLsb' 16 5).isLt
    exact ⟨wellFormed_chain_iff.mpr ⟨hstart, hsteps⟩,
      (encode_chain_eq_iff hstart hsteps w).mpr ⟨hop, rfl, hmid, rfl, hhi⟩⟩
  · cases h

/-- Settles O3. -/
theorem decodeChecksOpcodeThenReservedBits : Obligations.DecodeChecksOpcodeThenReservedBits := by
  intro w
  refine ⟨decode_of_unmapped, fun hB hres => ?_, fun hB hres => ?_, fun hK hres => ?_,
    fun hK hhi hmid => ?_, rfl, rfl⟩
  · obtain ⟨i, hi, hop⟩ := exists_formatB_of_opcode hB
    rw [decode_of_formatB hi hop, decodeFormatB_of_ne_zero i hres]
  · obtain ⟨i, hi, hop⟩ := exists_formatB_of_opcode hB
    exact ⟨i, (decode_of_formatB hi hop).trans (decodeFormatB_of_zero i hres), hop.symm⟩
  · rw [decode_of_chain (BitVec.eq_of_toNat_eq hK), decodeFormatK_of_ne_zero hres]
  · rw [decode_of_chain (BitVec.eq_of_toNat_eq hK), decodeFormatK_of_zero hhi hmid]

/-- Settles O4: each word of the map is the encoding of its command. -/
theorem opcodeMapWordsDecode : Obligations.OpcodeMapWordsDecode :=
  have decodes := decodeOfEncodeIsTheCommand
  ⟨decodes .nop rfl, decodes .prf rfl, decodes .fstep rfl, decodes .expand rfl, decodes .expbases rfl,
    decodes (.chain 0 15) rfl, decodes (.chain 11 4) rfl, decodes .hmsg rfl, decodes .encode rfl,
    decodes .encmsg rfl, decodes .gen rfl, decodes .genr rfl, decodes .sign rfl, decodes .pksig rfl,
    decodes .verify rfl⟩

end Sys2Proof

namespace Sys2Proof.Machine

/-! ### A command in flight that does not decode (R73, R78) -/

theorem perform_of_decode_error {s : State} {e : DecodeError} (h : decode s.cmd = .error e) :
    perform s = .next (s.raise (CmdError.ofDecode e)) := by
  rw [perform, h]

/-- At the engine's turn a word that does not decode ends the command with its error. -/
theorem step_of_decode_error {s : State} {e : DecodeError} (hnext : engineNext s)
    (h : decode s.cmd = .error e) :
    step s = .next (erroredState { s with events := s.events.tail }
      (CmdError.ofDecode e).code.toByte (BitVec.ofNat 3 (CmdError.ofDecode e).arg.val)) :=
  (step_of_engineNext hnext).trans (perform_of_decode_error h)

/-- Settles O5. -/
theorem undecodableCommandCompletesInError : Obligations.UndecodableCommandCompletesInError :=
  fun _ hnext => ⟨step_of_decode_error hnext, step_of_decode_error hnext⟩

end Sys2Proof.Machine

/-! SUPPORT. The operand checks (40_command_cycle.md R94 to R96) in the terms of the statements: which check of
an ARG fails, and which of a command's is reported. -/

namespace Sys2Proof.Machine

/-! ### The checks of one ARG (R94 to R96) -/

section
variable {i : Instr} {args args' : Vector Word 6} {k : Fin 6} {f : Option Nat}

/-- ARGk of the command is a descriptor, an input or an output, with the fixed length `f` if any. -/
def descriptorOperand (i : Instr) (k : Fin 6) (f : Option Nat) : Prop :=
  (operandRoles i)[k] = .input f ∨ (operandRoles i)[k] = .output f

theorem descriptorOperand.unique {g : Option Nat} (hf : descriptorOperand i k f)
    (hg : descriptorOperand i k g) : f = g := by
  rcases hf with hf | hf <;> rcases hg with hg | hg <;> simp_all

theorem checkOperand_of_descriptor {P : Config.Params} (hrole : descriptorOperand i k f) :
    checkOperand P i args k = checkDesc P k f (descOf args[k]) := by
  unfold checkOperand
  rcases hrole with hrole | hrole <;> rw [hrole]

/-- An ARG that is no descriptor has no check. -/
theorem checkOperand_of_not_descriptor {P : Config.Params} (h : ∀ f, ¬ descriptorOperand i k f) :
    checkOperand P i args k = none := by
  unfold checkOperand
  split
  next f hrole => exact absurd (.inl hrole) (h f)
  next f hrole => exact absurd (.inr hrole) (h f)
  next => rfl
  next => rfl

theorem lengthFails_iff (hrole : descriptorOperand i k f) :
    lengthFails i args k ↔ lengthOk f (descOf args[k]) = false := by
  constructor
  · rintro ⟨n, hn, hne⟩
    rw [hrole.unique hn]
    exact decide_eq_false hne
  · intro h
    cases f with
    | none => cases h
    | some n => exact ⟨n, hrole, of_decide_eq_false h⟩

theorem boundsFails_iff (hrole : descriptorOperand i k f) :
    boundsFails i args k ↔ boundsOk hw (descOf args[k]) = false := by
  constructor
  · rintro ⟨-, -, hout⟩
    exact decide_eq_false hout
  · exact fun h => ⟨f, hrole, of_decide_eq_false h⟩

/-- The length check comes first (R94). -/
theorem checkOperand_of_lengthFails (h : lengthFails i args k) :
    checkOperand hw i args k = some ⟨.length, k⟩ := by
  have ⟨_, hrole, _⟩ := h
  rw [checkOperand_of_descriptor hrole, checkDesc, if_pos ((lengthFails_iff hrole).mp h)]

theorem checkOperand_of_boundsFails (hlen : ¬ lengthFails i args k) (h : boundsFails i args k) :
    checkOperand hw i args k = some ⟨.bounds, k⟩ := by
  have ⟨_, hrole, _⟩ := h
  rw [checkOperand_of_descriptor hrole, checkDesc, if_neg (mt (lengthFails_iff hrole).mpr hlen),
    if_pos ((boundsFails_iff hrole).mp h)]

theorem checkOperand_of_passes (h : operandPasses i args k) : checkOperand hw i args k = none := by
  obtain ⟨hlen, hbounds⟩ := h
  by_cases hdesc : ∃ f, descriptorOperand i k f
  · obtain ⟨f, hrole⟩ := hdesc
    rw [checkOperand_of_descriptor hrole, checkDesc, if_neg (mt (lengthFails_iff hrole).mpr hlen),
      if_neg (mt (boundsFails_iff hrole).mpr hbounds)]
  · exact checkOperand_of_not_descriptor (not_exists.mp hdesc)

/-- The checks of an ARG look at its value only if the command uses it. -/
theorem checkOperand_congr {P : Config.Params}
    (h : (operandRoles i)[k] ≠ .ignored → args[k] = args'[k]) :
    checkOperand P i args k = checkOperand P i args' k := by
  by_cases hrole : (operandRoles i)[k] = .ignored
  · rw [checkOperand_of_ignored hrole, checkOperand_of_ignored hrole]
  · rw [checkOperand, checkOperand, h hrole]

end

/-! ### The checks of a command -/

section
variable {i : Instr} {args args' : Vector Word 6}

/-- The first failing check is reported (R94). -/
theorem checkOperands_of_first {k : Fin 6} {e : CmdError} (hbefore : ∀ j < k, operandPasses i args j)
    (h : checkOperand hw i args k = some e) : checkOperands hw i args = some e := by
  have split_at : ∀ k : Fin 6,
      List.finRange 6 = (List.finRange 6).take k ++ k :: (List.finRange 6).drop (k + 1) := by decide
  have lt_of_mem : ∀ k : Fin 6, ∀ j ∈ (List.finRange 6).take k, j < k := by decide
  exact List.findSome?_eq_some_iff.mpr ⟨_, k, _, split_at k, h,
    fun j hj => checkOperand_of_passes (hbefore j (lt_of_mem k j hj))⟩

theorem checkOperands_of_all_pass (h : ∀ k, operandPasses i args k) : checkOperands hw i args = none :=
  (checkOperands_eq_none i args).mpr fun k => checkOperand_of_passes (h k)

theorem checkOperands_congr {P : Config.Params}
    (h : ∀ k : Fin 6, (operandRoles i)[k] ≠ .ignored → args[k] = args'[k]) :
    checkOperands P i args = checkOperands P i args' := by
  unfold checkOperands
  congr 1
  funext k
  exact checkOperand_congr (h k)

end

/-- Settles O17: the first failing check decides, and with none a command other than GENR finishes. -/
theorem operandChecksReportTheFirstFailure : Obligations.OperandChecksReportTheFirstFailure := by
  intro i s
  refine ⟨fun k hbefore => ⟨fun hlen => ?_, fun hlen hbounds => ?_⟩, fun hpass hne => ?_⟩
  · exact exec_of_check_some (checkOperands_of_first hbefore (checkOperand_of_lengthFails hlen))
  · exact exec_of_check_some (checkOperands_of_first hbefore (checkOperand_of_boundsFails hlen hbounds))
  · obtain ⟨outs, r, hexec, -⟩ | ⟨hgenr, -⟩ := exec_of_check_none (checkOperands_of_all_pass hpass)
    · exact ⟨_, hexec, rfl, rfl, rfl⟩
    · exact absurd hgenr hne

end Sys2Proof.Machine

/-! SUPPORT. The step and the footprint of a command: every step answers a next state, the engine's turn
performs and completes the command in flight (R90, R91, R98), and nothing but its outputs, STATUS and GENR's
draw changes (R99). -/

namespace Sys2Proof.Machine

/-! ### The step -/

namespace CommandEnd
variable {s t : State}

theorem cmd_eq (h : CommandEnd s t) : t.cmd = s.cmd := by cases h <;> rfl

theorem args_eq (h : CommandEnd s t) : t.args = s.args := by cases h <;> rfl

theorem events_eq (h : CommandEnd s t) : t.events = s.events := by cases h <;> rfl

theorem response_eq (h : CommandEnd s t) : t.response = s.response := by cases h <;> rfl

theorem frees_eq (h : CommandEnd s t) : t.frees = s.frees := by cases h <;> rfl

end CommandEnd

theorem perform_of_decode_ok {s : State} {i : Instr} (h : decode s.cmd = .ok i) : perform s = exec i s := by
  rw [perform, h]

theorem engineTurn_answers (s : State) : ∃ t, engineTurn s = .next t := by
  unfold engineTurn
  split
  · obtain ⟨t, ht, -⟩ := perform_ends s
    exact ⟨t, ht⟩
  · exact ⟨s, rfl⟩

theorem eventStep_answers (e : Event) (s : State) : ∃ t, eventStep e s = .next t := by
  cases e with
  | engine => exact engineTurn_answers s
  | access a => exact ⟨_, rfl⟩
  | resetInput => exact ⟨_, rfl⟩
  | powerOn => exact ⟨_, rfl⟩

/-- Settles O7. -/
theorem everyStepAnswersANextState : Obligations.EveryStepAnswersANextState := by
  intro s
  unfold step
  split
  · exact engineTurn_answers s
  · exact eventStep_answers _ _

/-- Settles O8. -/
theorem commandInFlightCompletesInOneStep : Obligations.CommandInFlightCompletesInOneStep := by
  intro s hnext
  obtain ⟨t, ht, hend⟩ := perform_ends s.popped
  exact ⟨t, (step_of_engineNext hnext).trans ht, hend.busy_eq, hend.done_eq, hend.cmd_eq, hend.args_eq,
    hend.irqen_eq, hend.wbusy_eq, hend.events_eq⟩

/-- Settles O6. -/
theorem stepRunsTheDecodedCommand : Obligations.StepRunsTheDecodedCommand := by
  intro s i hbusy hdec
  have turn : engineNext s → step s = exec i s.popped := fun hnext =>
    (step_of_engineNext hnext).trans (perform_of_decode_ok hdec)
  refine ⟨fun hev => ?_, fun rest hev => ?_⟩
  · rw [turn ⟨hbusy, .inl hev⟩, State.popped_of_no_event hev]
  · rw [turn ⟨hbusy, .inr ⟨rest, hev⟩⟩, State.popped, hev, List.tail_cons]

/-- Settles O34. -/
theorem startRequestIsAcceptedOrSetsWbusy : Obligations.StartRequestIsAcceptedOrSetsWbusy := by
  intro s rest v h0 h1
  have request := step_write_register s rest v (off := 0x008) (regAt_eq_ctrl.mpr rfl) (by decide) (by decide)
  rw [writeReg_ctrl_start h0 h1] at request
  refine ⟨fun hb => ?_, fun hb => ?_⟩
  · rw [request, requestStart_busy (by exact hb)]
    rfl
  · rw [request, requestStart_idle (by exact hb)]
    rfl

/-! ### The footprint of a command (R99) -/

@[simp] theorem afterDraw_args (i : Instr) (s : State) : (afterDraw i s).args = s.args := by cases i <;> rfl

@[simp] theorem afterDraw_wmem (i : Instr) (s : State) : (afterDraw i s).wmem = s.wmem := by cases i <;> rfl

theorem afterDraw_of_ne_genr {i : Instr} (hne : i ≠ .genr) (s : State) : afterDraw i s = s := by
  cases i with
  | genr => exact absurd rfl hne
  | _ => rfl

/-- WMEM outside the output buffers is as before. -/
theorem read_finish_outside {i : Instr} {s : State} {outs : List (Fin 6 × Bytes)} (r : Bool) {a : Nat}
    (hm : outputsMatch i s.args outs) (ha : ¬ inOutputBuffer i s.args a) :
    Memory.read (s.finish outs r).wmem a = Memory.read s.wmem a := by
  refine Memory.read_writeList_outside _ _ a fun w hw => ?_
  obtain ⟨o, ho, rfl⟩ := List.mem_map.mp hw
  obtain ⟨f, hrole, hlen⟩ := hm o ho
  have hout : ¬ ((descOf s.args[o.1]).addr ≤ a ∧ a < (descOf s.args[o.1]).addr + (descOf s.args[o.1]).len) :=
    fun hin => ha ⟨o.1, f, hrole, hin⟩
  simp only [hlen]
  omega

theorem exec_frames_wmem {i : Instr} {s t : State} (h : exec i s = .next t) {a : Nat}
    (ha : ¬ inOutputBuffer i s.args a) : Memory.read t.wmem a = Memory.read s.wmem a := by
  cases hc : checkOperands hw i s.args with
  | some e =>
    cases (exec_of_check_some hc).symm.trans h
    rfl
  | none =>
    obtain ⟨outs, r, hexec, hm, -⟩ | ⟨-, -, hexec⟩ := exec_of_check_none hc <;> cases hexec.symm.trans h
    · rw [read_finish_outside r (by rwa [afterDraw_args]) (by rwa [afterDraw_args]), afterDraw_wmem]
    · rfl

/-- Only GENR draws. -/
theorem exec_keeps_entropy {i : Instr} {s t : State} (h : exec i s = .next t) (hne : i ≠ .genr) :
    t.entropy = s.entropy ∧ t.draws = s.draws := by
  cases hc : checkOperands hw i s.args with
  | some e =>
    cases (exec_of_check_some hc).symm.trans h
    exact ⟨rfl, rfl⟩
  | none =>
    obtain ⟨outs, r, hexec, -⟩ | ⟨hgenr, -⟩ := exec_of_check_none hc
    · rw [afterDraw_of_ne_genr hne] at hexec
      cases hexec.symm.trans h
      exact ⟨rfl, rfl⟩
    · exact absurd hgenr hne

theorem commandEnd_of_exec {i : Instr} {s t : State} (h : exec i s = .next t) : CommandEnd s t := by
  obtain ⟨u, hu, hend⟩ := exec_ends i s
  cases hu.symm.trans h
  exact hend

/-- Settles O13. -/
theorem commandFootprint : Obligations.CommandFootprint := by
  intro i s t h
  have hend := commandEnd_of_exec h
  exact ⟨fun a ha => exec_frames_wmem h ha, hend.args_eq, hend.cmd_eq, hend.irqen_eq, hend.wbusy_eq,
    hend.events_eq, hend.response_eq, hend.frees_eq, exec_keeps_entropy h⟩

end Sys2Proof.Machine

/-! SUPPORT. A command is a function of its operands, its input bytes and GENR's draw (R100), and its outputs
fill its output buffers. -/

namespace Sys2Proof.Machine

/-! ### A command as a function (R100) -/

/-- What a command whose checks pass does, as a function of its ARG values, its input bytes and the answer of
GENR's draw: it ends in an error, or with outputs and a value of RESULT. -/
def commandResult (i : Instr) (args : Vector Word 6) (input : Fin 6 → Bytes)
    (draw : Option (Vector Byte 32)) : Except CmdError (List (Fin 6 × Bytes) × Bool) :=
  match i with
  | .nop => .ok ([], false)
  | .prf => .ok ([(2, prf hw (input 0) (input 1))], false)
  | .fstep => .ok ([(3, chainStepHash hw (input 0) (input 1) (loadCaddr hw (input 2)))], false)
  | .expand => .ok ([(1, expand hw (descOf args[1]).len (input 0))], false)
  | .expbases => .ok ([(1, bases hw (input 0))], false)
  | .chain start steps =>
    .ok ([(4, chain hw (input 0) start steps (input 1) (chainAddrOf hw (input 2) args[3]))], false)
  | .hmsg => .ok ([(1, (hw.h32 (input 0)).toList)], false)
  | .encode => .ok ([(1, digitBytes (encodeDigits (input 0)))], false)
  | .encmsg => .ok ([(1, digitBytes (digits hw (input 0)))], false)
  | .gen => .ok ([(1, (keypair hw (input 0)).1), (2, (keypair hw (input 0)).2)], false)
  | .genr =>
    match draw with
    | none => .error ⟨.entropy, 0⟩
    | some e => .ok ([(0, (keypair hw e.toList).1), (1, (keypair hw e.toList).2)], false)
  | .sign => .ok ([(2, signMessage hw (input 0) (input 1))], false)
  | .pksig => .ok ([(4, pkFromSig hw (input 0) (input 1) (input 2) (input 3))], false)
  | .verify => .ok ([], verifySig hw (input 0) (input 1) (input 2))

/-- The state a result leaves. -/
def State.endWith (s : State) : Except CmdError (List (Fin 6 × Bytes) × Bool) → State
  | .error e => s.raise e
  | .ok (outs, r) => s.finish outs r

/-- `exec` computes `commandResult`. -/
theorem exec_eq_endWith {i : Instr} {s : State} (h : checkOperands hw i s.args = none) :
    exec i s = .next ((afterDraw i s).endWith (commandResult i s.args s.input s.entropyDraw)) := by
  cases i with
  | nop => exact exec_nop_of_check_none h
  | prf => exact exec_prf_of_check_none h
  | fstep => exact exec_fstep_of_check_none h
  | expand => exact exec_expand_of_check_none h
  | expbases => exact exec_expbases_of_check_none h
  | chain start steps => exact exec_chain_of_check_none h
  | hmsg => exact exec_hmsg_of_check_none h
  | encode => exact exec_encode_of_check_none h
  | encmsg => exact exec_encmsg_of_check_none h
  | gen => exact exec_gen_of_check_none h
  | genr =>
    cases hdraw : s.entropyDraw with
    | none => exact exec_genr_of_fail h hdraw
    | some e => exact exec_genr_of_draw h hdraw
  | sign => exact exec_sign_of_check_none h
  | pksig => exact exec_pksig_of_check_none h
  | verify => exact exec_verify_of_check_none h

/-- What a command computes depends on the ARG values it uses, its inputs and GENR's draw alone. -/
theorem commandResult_congr {i : Instr} {args args' : Vector Word 6} {input input' : Fin 6 → Bytes}
    {draw draw' : Option (Vector Byte 32)}
    (hargs : ∀ k : Fin 6, (operandRoles i)[k] ≠ .ignored → args[k] = args'[k])
    (hin : ∀ (k : Fin 6) (f : Option Nat), (operandRoles i)[k] = .input f → input k = input' k)
    (hdraw : i = .genr → draw = draw') :
    commandResult i args input draw = commandResult i args' input' draw' := by
  cases i with
  | nop => rfl
  | prf => simp only [commandResult, hin 0 _ rfl, hin 1 _ rfl]
  | fstep => simp only [commandResult, hin 0 _ rfl, hin 1 _ rfl, hin 2 _ rfl]
  | expand =>
    have hlen : args[1] = args'[1] := hargs 1 (by decide)
    simp only [commandResult, hin 0 _ rfl, hlen]
  | expbases => simp only [commandResult, hin 0 _ rfl]
  | chain start steps =>
    have hindex : args[3] = args'[3] := hargs 3 (by simp [operandRoles])
    simp only [commandResult, hin 0 _ rfl, hin 1 _ rfl, hin 2 _ rfl, hindex]
  | hmsg => simp only [commandResult, hin 0 _ rfl]
  | encode => simp only [commandResult, hin 0 _ rfl]
  | encmsg => simp only [commandResult, hin 0 _ rfl]
  | gen => simp only [commandResult, hin 0 _ rfl]
  | genr => rw [hdraw rfl]; rfl
  | sign => simp only [commandResult, hin 0 _ rfl, hin 1 _ rfl]
  | pksig => simp only [commandResult, hin 0 _ rfl, hin 1 _ rfl, hin 2 _ rfl, hin 3 _ rfl]
  | verify => simp only [commandResult, hin 0 _ rfl, hin 1 _ rfl, hin 2 _ rfl]

/-! ### A command fills its output buffers -/

/-- The output operands of a command, in increasing ARG order (R75). -/
def outputOperands (i : Instr) : List (Fin 6) :=
  (List.finRange 6).filter fun k => (operandRoles i)[k] matches .output _

theorem mem_outputOperands_iff {i : Instr} {k : Fin 6} :
    k ∈ outputOperands i ↔ ∃ f, (operandRoles i)[k] = .output f := by
  rw [outputOperands, List.mem_filter]
  simp only [List.mem_finRange, true_and]
  cases (operandRoles i)[k] <;> simp

section
variable {i : Instr} {args : Vector Word 6} {input : Fin 6 → Bytes} {draw : Option (Vector Byte 32)}
  {outs : List (Fin 6 × Bytes)} {r : Bool}

/-- A command without error writes every output operand, in increasing ARG order (R92). -/
theorem operands_of_commandResult (h : commandResult i args input draw = .ok (outs, r)) :
    outs.map (·.1) = outputOperands i := by
  cases i with
  | genr =>
    cases draw with
    | none => cases h
    | some e => cases h; rfl
  | _ => cases h; rfl

theorem output_of_commandResult (h : commandResult i args input draw = .ok (outs, r)) {o : Fin 6 × Bytes}
    (ho : o ∈ outs) : ∃ f, (operandRoles i)[o.1] = .output f :=
  mem_outputOperands_iff.mp (operands_of_commandResult h ▸ List.mem_map_of_mem ho)

/-- Each output has its operand's fixed length, or that of its descriptor. -/
theorem length_of_commandResult (h : commandResult i args input draw = .ok (outs, r))
    (hin : ∀ (k : Fin 6) (n : Nat), (operandRoles i)[k] = .input (some n) → (input k).length = n) :
    ∀ o ∈ outs, ∃ f, (operandRoles i)[o.1] = .output f ∧ o.2.length = f.getD (descOf args[o.1]).len := by
  cases i with
  | genr =>
    cases draw with
    | none => cases h
    | some e => cases h; simp [operandRoles]
  | encode => cases h; simp [operandRoles, length_encodeDigits (hin 0 _ rfl)]
  | chain start steps => cases h; simp [operandRoles, length_chain _ _ _ _ _ (hin 0 _ rfl)]
  | pksig => cases h; simp [operandRoles, length_pkFromSig _ _ _ _ (hin 0 _ rfl)]
  | _ => cases h; simp [operandRoles]

end

/-- The outputs hold, for each output operand, as many bytes as its descriptor names. -/
def outputsFill (i : Instr) (args : Vector Word 6) (outs : List (Fin 6 × Bytes)) : Prop :=
  ∀ (k : Fin 6) (f : Option Nat), (operandRoles i)[k] = .output f →
    ∃ v, (k, v) ∈ outs ∧ v.length = (descOf args[k]).len

/-- A command whose checks pass and that ends without error fills its output buffers. -/
theorem outputsFill_of_commandResult {i : Instr} {s : State} {outs : List (Fin 6 × Bytes)} {r : Bool}
    (hc : checkOperands hw i s.args = none)
    (h : commandResult i s.args s.input s.entropyDraw = .ok (outs, r)) : outputsFill i s.args outs := by
  intro k f hrole
  have hk : k ∈ outs.map (·.1) := operands_of_commandResult h ▸ mem_outputOperands_iff.mpr ⟨f, hrole⟩
  obtain ⟨⟨k, v⟩, hmem, rfl⟩ := List.mem_map.mp hk
  have hin : ∀ (k : Fin 6) (n : Nat), (operandRoles i)[k] = .input (some n) → (s.input k).length = n :=
    fun k n hk => (length_input s k).trans (of_decide_eq_true (input_of_checkOperands hc hk).1)
  obtain ⟨g, hrole', hlen⟩ := length_of_commandResult h hin _ hmem
  refine ⟨v, hmem, hlen.trans ?_⟩
  cases g with
  | none => rfl
  | some n => exact (of_decide_eq_true (output_of_checkOperands hc hrole').1).symm

/-! ### Writing the same bytes to two memories -/

/-- The same write leaves an address alike in two memories if it was alike, or if it is written. -/
theorem Memory.read_writeBytes_congr (m m' : Memory) {a x : Nat} {v : Bytes}
    (h : Memory.read m x = Memory.read m' x ∨ a ≤ x ∧ x < a + v.length) :
    Memory.read (Memory.writeBytes m a v) x = Memory.read (Memory.writeBytes m' a v) x := by
  by_cases hin : a ≤ x ∧ x < a + v.length
  · obtain ⟨k, rfl⟩ := Nat.exists_eq_add_of_le hin.1
    have hk : k < v.length := by omega
    rw [Memory.read_writeBytes_inside _ _ _ _ hk, Memory.read_writeBytes_inside _ _ _ _ hk]
  · have hout : x < a ∨ a + v.length ≤ x := by omega
    rw [Memory.read_writeBytes_outside _ _ _ _ hout, Memory.read_writeBytes_outside _ _ _ _ hout]
    exact h.resolve_right hin

theorem Memory.read_writeList_congr (ws : List (Nat × Bytes)) (m m' : Memory) {x : Nat}
    (h : Memory.read m x = Memory.read m' x ∨ ∃ w ∈ ws, w.1 ≤ x ∧ x < w.1 + w.2.length) :
    Memory.read (Memory.writeList m ws) x = Memory.read (Memory.writeList m' ws) x := by
  induction ws generalizing m m' with
  | nil => simpa using h
  | cons w ws ih =>
    rw [Memory.writeList_cons, Memory.writeList_cons]
    refine ih _ _ ?_
    rcases h with h | ⟨w', hw', hx⟩
    · exact .inl (Memory.read_writeBytes_congr m m' (.inl h))
    · rcases List.mem_cons.mp hw' with rfl | hw'
      · exact .inl (Memory.read_writeBytes_congr m m' (.inr hx))
      · exact .inr ⟨w', hw', hx⟩

/-- Two states that write the same outputs at the same addresses agree on every output buffer. -/
theorem read_finish_congr {i : Instr} {s s' : State} {outs : List (Fin 6 × Bytes)} (r : Bool) {a : Nat}
    (hfill : outputsFill i s.args outs) (haddr : ∀ o ∈ outs, s.args[o.1] = s'.args[o.1])
    (ha : inOutputBuffer i s.args a) :
    Memory.read (s.finish outs r).wmem a = Memory.read (s'.finish outs r).wmem a := by
  have hwrites : outs.map (fun o => ((descOf s.args[o.1]).addr, o.2))
      = outs.map fun o => ((descOf s'.args[o.1]).addr, o.2) :=
    List.map_congr_left fun o ho => by rw [haddr o ho]
  obtain ⟨k, f, hrole, hlo, hhi⟩ := ha
  obtain ⟨v, hmem, hlen⟩ := hfill k f hrole
  simp only [State.finish, State.complete_wmem, State.writeOutputs_wmem, ← hwrites]
  refine Memory.read_writeList_congr _ _ _ (.inr ⟨_, List.mem_map_of_mem hmem, hlo, ?_⟩)
  rwa [hlen]

/-- The status fields of an ended command are those of its result. -/
theorem endWith_status (s s' : State) (c : Except CmdError (List (Fin 6 × Bytes) × Bool)) :
    (s.endWith c).err = (s'.endWith c).err ∧ (s.endWith c).errcode = (s'.endWith c).errcode
      ∧ (s.endWith c).errarg = (s'.endWith c).errarg ∧ (s.endWith c).result = (s'.endWith c).result := by
  cases c <;> exact ⟨rfl, rfl, rfl, rfl⟩

/-- Settles O14: both states fail the same check, or have the same result, whose outputs fill the output
buffers. -/
theorem commandDependsOnItsInputsOnly : Obligations.CommandDependsOnItsInputsOnly := by
  intro i s s' t t' hdraw hargs hin ht ht'
  have hcheck := checkOperands_congr (P := hw) hargs
  cases hc : checkOperands hw i s.args with
  | some e =>
    cases (exec_of_check_some hc).symm.trans ht
    cases (exec_of_check_some (hcheck ▸ hc)).symm.trans ht'
    exact ⟨rfl, rfl, rfl, rfl, fun herr => absurd herr (by simp)⟩
  | none =>
    cases (exec_eq_endWith hc).symm.trans ht
    cases (exec_eq_endWith (hcheck ▸ hc)).symm.trans ht'
    rw [← commandResult_congr hargs hin hdraw]
    obtain ⟨herr, hcode, harg, hresult⟩ := endWith_status (afterDraw i s) (afterDraw i s')
      (commandResult i s.args s.input s.entropyDraw)
    refine ⟨herr, hcode, harg, hresult, fun hok a ha => ?_⟩
    cases hres : commandResult i s.args s.input s.entropyDraw with
    | error e =>
      rw [hres] at hok
      cases hok
    | ok out =>
      obtain ⟨outs, r⟩ := out
      have hfill := outputsFill_of_commandResult hc hres
      refine read_finish_congr (i := i) r (by rwa [afterDraw_args]) (fun o ho => ?_) (by rwa [afterDraw_args])
      rw [afterDraw_args, afterDraw_args]
      obtain ⟨f, hrole⟩ := output_of_commandResult hres ho
      exact hargs o.1 (by simp [hrole])

end Sys2Proof.Machine

/-! SUPPORT. What each command writes when its operands are usable, in the words of the statements. -/

namespace Sys2Proof.Machine

/-! ### Usable operands -/

/-- What an operand must be for its checks to pass, by its role (R94 to R96). -/
def roleMet : Role → Word → Prop
  | .ignored, _ => True
  | .integer, _ => True
  | .input none, w => bufferFits w
  | .output none, w => bufferFits w
  | .input (some n), w => bufferOf w n
  | .output (some n), w => bufferOf w n

theorem operandPasses_of_roleMet {i : Instr} {args : Vector Word 6} {k : Fin 6}
    (h : roleMet (operandRoles i)[k] args[k]) : operandPasses i args k := by
  constructor
  · rintro ⟨n, hrole | hrole, hne⟩ <;> rw [hrole] at h <;> exact hne h.1
  · rintro ⟨f, hrole | hrole, hout⟩ <;> rw [hrole] at h <;> cases f
    · exact hout h
    · exact hout h.2
    · exact hout h
    · exact hout h.2

theorem checkOperands_of_rolesMet {i : Instr} {args : Vector Word 6}
    (h0 : roleMet (operandRoles i)[0] args[0]) (h1 : roleMet (operandRoles i)[1] args[1])
    (h2 : roleMet (operandRoles i)[2] args[2]) (h3 : roleMet (operandRoles i)[3] args[3])
    (h4 : roleMet (operandRoles i)[4] args[4]) (h5 : roleMet (operandRoles i)[5] args[5]) :
    checkOperands hw i args = none := by
  refine checkOperands_of_all_pass fun k => operandPasses_of_roleMet ?_
  match k with
  | 0 => exact h0
  | 1 => exact h1
  | 2 => exact h2
  | 3 => exact h3
  | 4 => exact h4
  | 5 => exact h5

/-! ### Each command -/

/-- A command with one output, its bytes `w` written out in the form of the statements. -/
theorem exec_completes_one_output {i : Instr} {s : State} (k : Fin 6) {v w : Bytes}
    (h : exec i s = .next (s.finish [(k, v)] false)) (hv : v = w) :
    exec i s = .next (completedState s (Memory.writeBytes s.wmem (descOf s.args[k]).addr w) false) := by
  subst hv
  exact h

/-- Settles O18. -/
theorem nopClearsTheStatusFields : Obligations.NopClearsTheStatusFields := fun _ =>
  exec_nop_of_check_none (checkOperands_of_rolesMet trivial trivial trivial trivial trivial trivial)

theorem pad_padPrf : pad padPrf = List.replicate 31 0 ++ [3] := by decide

theorem pad_padF : pad padF = List.replicate 32 0 := by decide

/-- Settles O19. -/
theorem prfWritesThePaddedHash : Obligations.PrfWritesThePaddedHash := by
  intro s h0 h1 h2
  rw [← pad_padPrf]
  exact exec_completes_one_output 2
    (exec_prf_of_check_none (checkOperands_of_rolesMet h0 h1 h2 trivial trivial trivial)) rfl

/-- Settles O20. -/
theorem fstepWritesTheChainStepHash : Obligations.FstepWritesTheChainStepHash := by
  intro s h0 h1 h2 h3
  rw [← pad_padF]
  exact exec_completes_one_output 3
    (exec_fstep_of_check_none (checkOperands_of_rolesMet h0 h1 h2 h3 trivial trivial)) rfl

/-- Settles O21. -/
theorem expandWritesTheSeedStream : Obligations.ExpandWritesTheSeedStream := by
  intro s h0 h1
  exact exec_completes_one_output 1
    (exec_expand_of_check_none (checkOperands_of_rolesMet h0 h1 trivial trivial trivial trivial)) rfl

/-- Settles O22. -/
theorem expbasesWritesTheChainBases : Obligations.ExpbasesWritesTheChainBases := by
  intro s h0 h1
  exact exec_completes_one_output 1
    (exec_expbases_of_check_none (checkOperands_of_rolesMet h0 h1 trivial trivial trivial trivial)) rfl

/-- Settles O23. -/
theorem chainWritesTheChainSegment : Obligations.ChainWritesTheChainSegment := by
  intro start steps s h0 h1 h2 h4
  exact exec_completes_one_output 4
    (exec_chain_of_check_none (checkOperands_of_rolesMet h0 h1 h2 trivial h4 trivial)) rfl

/-- Settles O24. -/
theorem hmsgWritesTheMessageDigest : Obligations.HmsgWritesTheMessageDigest := by
  intro s h0 h1
  exact exec_completes_one_output 1
    (exec_hmsg_of_check_none (checkOperands_of_rolesMet h0 h1 trivial trivial trivial trivial)) rfl

/-- The digit vector of a message, in terms of its digest (R172, R173). -/
theorem digitBytes_digits (P : Config.Params) (msg : Bytes) :
    digitBytes (digits P msg)
      = (base16 (P.h32 msg).toList ++ cdigits (base16 (P.h32 msg).toList)).map (BitVec.ofNat 8) := rfl

/-- Settles O26. -/
theorem encmsgWritesTheDigitsOfTheDigest : Obligations.EncmsgWritesTheDigitsOfTheDigest := by
  intro s h0 h1
  exact exec_completes_one_output 1
    (exec_encmsg_of_check_none (checkOperands_of_rolesMet h0 h1 trivial trivial trivial trivial))
    (digitBytes_digits hw (s.input 0))

theorem exec_gen_of_buffers {s : State} (h0 : bufferOf s.args[0] 32) (h1 : bufferOf s.args[1] 2208)
    (h2 : bufferOf s.args[2] 32) :
    exec .gen s = .next (completedState s
      (Memory.writeBytes
        (Memory.writeBytes s.wmem (descOf s.args[1]).addr (keypair hw (s.input 0)).1)
        (descOf s.args[2]).addr (keypair hw (s.input 0)).2) false) :=
  exec_gen_of_check_none (checkOperands_of_rolesMet h0 h1 h2 trivial trivial trivial)

/-- Settles O27. -/
theorem genWritesTheKeyPair : Obligations.GenWritesTheKeyPair :=
  ⟨fun _ _ => rfl, fun _ => exec_gen_of_buffers⟩

/-- The signature chain by chain (R191), with the chain bases as PRFs of the counter (R131). -/
theorem signMessage_eq (P : Config.Params) (msg secret : Bytes) :
    signMessage P msg secret = (List.range 67).flatMap fun n =>
      chain P (prf P secret (toBE n 32)) 0 ((digits P msg).getD n 0) (slice (expand P 2208 secret) 2144 2176)
        (chainAddrOf P (slice (expand P 2208 secret) 2176 2208) (BitVec.ofNat 32 n)) := rfl

/-- Settles O30. -/
theorem signWritesTheRevealedChainValues : Obligations.SignWritesTheRevealedChainValues := by
  intro s h0 h1 h2
  exact exec_completes_one_output 2
    (exec_sign_of_check_none (checkOperands_of_rolesMet h0 h1 h2 trivial trivial trivial))
    (signMessage_eq hw (s.input 0) (s.input 1))

/-- The recovered tops chain by chain (R192). -/
theorem pkFromSig_eq (P : Config.Params) (sig msg ps tag : Bytes) :
    pkFromSig P sig msg ps tag = (List.range 67).flatMap fun n =>
      chain P (slice sig (32 * n) (32 * n + 32)) ((digits P msg).getD n 0) (15 - (digits P msg).getD n 0) ps
        (chainAddrOf P tag (BitVec.ofNat 32 n)) := rfl

/-- Settles O31. -/
theorem pksigWritesTheCompletedChains : Obligations.PksigWritesTheCompletedChains := by
  intro s h0 h1 h2 h3 h4
  exact exec_completes_one_output 4
    (exec_pksig_of_check_none (checkOperands_of_rolesMet h0 h1 h2 h3 h4 trivial))
    (pkFromSig_eq hw (s.input 0) (s.input 1) (s.input 2) (s.input 3))

/-- Settles O32. -/
theorem verifyReportsWhetherTheTopsMatch : Obligations.VerifyReportsWhetherTheTopsMatch := fun _ h0 h1 h2 =>
  exec_verify_of_check_none (checkOperands_of_rolesMet h0 h1 h2 trivial trivial trivial)

/-- Settles O33: the secret is written last, and outside it the address stays as written. -/
theorem genSecretWinsOnSharedBytes : Obligations.GenSecretWinsOnSharedBytes := by
  intro s t h0 h1 h2 ht
  cases (exec_gen_of_buffers h0 h1 h2).symm.trans ht
  have hsecret := length_keypair_snd hw (s.input 0)
  refine ⟨?_, fun k hk hout => ?_⟩
  · have h := Memory.readBytes_writeBytes
      (Memory.writeBytes s.wmem (descOf s.args[1]).addr (keypair hw (s.input 0)).1)
      (descOf s.args[2]).addr (keypair hw (s.input 0)).2
    rwa [hsecret] at h
  · have hk' : k < (keypair hw (s.input 0)).1.length := by rwa [length_keypair_fst]
    rw [List.getElem?_eq_getElem hk', completedState,
      Memory.read_writeBytes_outside _ _ _ _ (by rwa [hsecret]), Memory.read_writeBytes_inside _ _ _ _ hk']

/-! ### The digit vector of ENCODE (R170 to R173) -/

theorem csum_eq_sum_range {m : List Nat} {n : Nat} (hm : m.length = n) :
    csum m = ((List.range n).map fun j => 15 - m.getD j 0).sum := by
  subst hm
  refine congrArg List.sum ?_
  refine List.ext_getElem (by simp) fun j hj _ => ?_
  have hjm : j < m.length := by simpa using hj
  simp [List.getElem?_eq_getElem hjm]

theorem csum_le (m : List Nat) : csum m ≤ m.length * 15 := by
  have h := List.sum_le_card_nsmul (m.map fun d => 15 - d) 15 (by simp)
  simpa [csum] using h

/-- The checksum digits are the checksum's big-endian nibbles (44_message_encoder.md, Checksum digits). -/
theorem cdigits_eq_nibbles {m : List Nat} (h : csum m < 4096) :
    cdigits m = [csum m / 256, csum m / 16 % 16, csum m % 16] := by
  simp only [cdigits, cbytes, toBE, base16, Config.csumShift, Config.len2, List.nil_append, List.cons_append,
    List.flatMap_cons, List.flatMap_nil, List.take_succ_cons, List.take_zero, BitVec.toNat_ofNat,
    List.cons.injEq, and_true]
  omega

/-- Settles O25. -/
theorem encodeWritesTheDigitVector : Obligations.EncodeWritesTheDigitVector := by
  intro s h0 h1
  have hlen : (base16 (s.input 0)).length = 64 := by
    rw [length_base16, length_input]
    exact congrArg (2 * ·) h0.1
  have hmax := csum_le (base16 (s.input 0))
  have hdigits := cdigits_eq_nibbles (m := base16 (s.input 0)) (by omega)
  rw [csum_eq_sum_range hlen] at hdigits
  intro m c
  have hvector : m ++ [c / 256, c / 16 % 16, c % 16] = encodeDigits (s.input 0) :=
    congrArg (base16 (s.input 0) ++ ·) hdigits.symm
  rw [hvector]
  exact exec_completes_one_output 1
    (exec_encode_of_check_none (checkOperands_of_rolesMet h0 h1 trivial trivial trivial trivial)) rfl

end Sys2Proof.Machine

/-! SUPPORT. The padded-hash core (41_padded_hash.md): words and their bytes, strings cut into blocks of one
length, and with them the chain-address as it is serialised and the chain bases block by block. -/

namespace Sys2Proof.Machine

/-! ### Words and their bytes (R8, R113) -/

theorem fromBE_eq_fromLE_reverse (s : Bytes) : fromBE s = fromLE s.reverse := by
  induction s using List.reverseRecOn with
  | nil => rfl
  | append_singleton s b ih =>
    rw [List.reverse_concat, fromLE, ← ih, fromBE, List.foldl_append]
    exact (Nat.add_comm _ _).trans (congrArg _ (Nat.mul_comm _ _))

theorem fromLE_lt (s : Bytes) : fromLE s < 256 ^ s.length := by
  induction s with
  | nil => simp [fromLE]
  | cons b s ih =>
    have hb := b.isLt
    rw [fromLE, List.length_cons, Nat.pow_succ]
    omega

theorem toBE_fromLE (s : Bytes) : toBE (fromLE s) s.length = s.reverse := by
  induction s with
  | nil => rfl
  | cons b s ih =>
    have hhigh : (b.toNat + 256 * fromLE s) / 256 = fromLE s := by
      have hb := b.isLt
      omega
    have hlow : BitVec.ofNat 8 (b.toNat + 256 * fromLE s) = b := by
      apply BitVec.eq_of_toNat_eq
      rw [BitVec.toNat_ofNat, Nat.add_mul_mod_self_left, Nat.mod_eq_of_lt b.isLt]
    rw [fromLE, List.length_cons, toBE, hhigh, hlow, ih, List.reverse_cons]

/-- Little-endian load, big-endian store: the four bytes come out in reverse. -/
theorem toBE_loadWord_little {s : Bytes} (h : s.length = 4) :
    toBE (loadWord .little s).toNat 4 = s.reverse := by
  have hlt : fromLE s < 2 ^ 32 := by simpa [h] using fromLE_lt s
  rw [loadWord, BitVec.toNat_ofNat, Nat.mod_eq_of_lt hlt, ← h, toBE_fromLE]

/-- Big-endian load, big-endian store: the four bytes come back. -/
theorem toBE_loadWord_big {s : Bytes} (h : s.length = 4) : toBE (loadWord .big s).toNat 4 = s := by
  have hload : loadWord .big s = loadWord .little s.reverse :=
    congrArg (BitVec.ofNat 32) (fromBE_eq_fromLE_reverse s)
  rw [hload, toBE_loadWord_little (by rwa [List.length_reverse]), List.reverse_reverse]

/-! ### Strings cut into blocks of one length -/

theorem getElem?_slice (s : Bytes) {i j k : Nat} (h : k < j - i) : (slice s i j)[k]? = s[i + k]? := by
  rw [slice, List.getElem?_take_of_lt h, List.getElem?_drop]

theorem flatMap_slice (s : Bytes) (c n : Nat) :
    ((List.range n).flatMap fun j => slice s (c * j) (c * j + c)) = s.take (c * n) := by
  induction n with
  | zero => simp
  | succ n ih =>
    rw [List.range_succ, List.flatMap_append, ih, Nat.mul_succ, List.take_add]
    simp [slice]

theorem slice_flatMap_const {f : Nat → Bytes} {c n i : Nat} (h : ∀ j < n, (f j).length = c) (hi : i < n) :
    slice ((List.range n).flatMap f) (c * i) (c * i + c) = f i := by
  obtain ⟨m, rfl⟩ := Nat.exists_eq_add_of_lt hi
  have hbefore : ((List.range i).flatMap f).length = c * i := by
    rw [length_flatMap_const i fun j hj => h j (by omega), Nat.mul_comm]
  rw [slice, Nat.add_assoc, List.range_add, List.flatMap_append, List.drop_left' hbefore,
    List.range_succ_eq_map, List.map_cons, List.flatMap_cons, Nat.add_sub_cancel_left]
  exact List.take_left' (h i hi)

/-! ### The chain-address (R112, R113) -/

theorem length_group {tag : Bytes} (h : tag.length = 32) {j : Nat} (hj : j < 8) :
    (slice tag (4 * j) (4 * j + 4)).length = 4 := by
  rw [length_slice_of_le (by omega)]
  omega

/-- A loaded chain-address is serialised word by word. -/
theorem caddrBytes_loadCaddr (P : Config.Params) (tag : Bytes) :
    caddrBytes (loadCaddr P tag) = (List.range 8).flatMap fun j => toBE (caddrWord P tag j).toNat 4 := by
  simp [caddrBytes, loadCaddr, List.range_succ]

theorem caddrBytes_loadCaddr_big {P : Config.Params} {tag : Bytes} (h : tag.length = 32)
    (hP : P.addrWordLoad = .big) : caddrBytes (loadCaddr P tag) = tag := by
  have hword : ∀ j ∈ List.range 8, toBE (caddrWord P tag j).toNat 4 = slice tag (4 * j) (4 * j + 4) :=
    fun j hj => by rw [caddrWord, hP, toBE_loadWord_big (length_group h (List.mem_range.mp hj))]
  rw [caddrBytes_loadCaddr, List.flatMap_congr hword, flatMap_slice]
  exact List.take_of_length_le (by omega)

/-- Under LE a group of the serialised chain-address is the group of the tag, reversed. -/
theorem slice_caddrBytes_loadCaddr_little {P : Config.Params} {tag : Bytes} (h : tag.length = 32)
    (hP : P.addrWordLoad = .little) {j : Nat} (hj : j < 8) :
    slice (caddrBytes (loadCaddr P tag)) (4 * j) (4 * j + 4) = (slice tag (4 * j) (4 * j + 4)).reverse := by
  rw [caddrBytes_loadCaddr, slice_flatMap_const (fun _ _ => length_toBE _ 4) hj, caddrWord, hP,
    toBE_loadWord_little (length_group h hj)]

/-- Settles O53: under BE word by word, under LE through the reversal of each group. -/
theorem caddrLoadReversesGroupsUnderLittleEndian :
    Obligations.CaddrLoadReversesGroupsUnderLittleEndian := by
  intro P tag h
  refine ⟨caddrBytes_loadCaddr_big h, fun hP j hj k hk => ?_⟩
  have hgroup := length_group h hj
  calc (caddrBytes (loadCaddr P tag))[4 * j + k]?
      = (slice (caddrBytes (loadCaddr P tag)) (4 * j) (4 * j + 4))[k]? :=
        (getElem?_slice _ (by omega)).symm
    _ = (slice tag (4 * j) (4 * j + 4)).reverse[k]? := by
        rw [slice_caddrBytes_loadCaddr_little h hP hj]
    _ = (slice tag (4 * j) (4 * j + 4))[3 - k]? := by
        rw [List.getElem?_reverse (by omega), hgroup]
    _ = tag[4 * j + (3 - k)]? := getElem?_slice _ (by omega)

/-! ### The chain bases (R131) -/

theorem slice_bases (P : Config.Params) (secret : Bytes) {i : Nat} (hi : i < 67) :
    slice (bases P secret) (32 * i) (32 * i + 32) = chainBase P secret i :=
  slice_flatMap_const (fun j _ => length_chainBase P secret j) hi

/-- Settles O56: block i of the bases is the base of chain i, a PRF by definition. -/
theorem chainBasesArePrfsOfTheCounter : Obligations.ChainBasesArePrfsOfTheCounter := by
  intro P secret
  refine ⟨length_bases P secret, fun i hi => ?_⟩
  rw [slice_bases P secret hi, chainBase, prf, pad_padPrf]

end Sys2Proof.Machine

/-! SUPPORT. The seed expander (42_seed_expander.md): the loop of R130 against the blocks of the rolling state. -/

namespace Sys2Proof.Machine

/-- The rolling state after a hash of R130: the second half of the digest. -/
def rollState (P : Config.Params) (seed state : Bytes) : Bytes := slice (P.h64 (state ++ seed)).toList 32 64

/-- What a hash of R130 emits when nothing is cut: the first half of the digest. -/
def streamBlock (P : Config.Params) (seed state : Bytes) : Bytes := slice (P.h64 (state ++ seed)).toList 0 32

/-- The first `n` uncut blocks of the stream from a rolling state on. -/
def streamBlocks (P : Config.Params) (seed : Bytes) (n : Nat) (state : Bytes) : Bytes :=
  (List.range n).flatMap fun k => streamBlock P seed ((rollState P seed)^[k] state)

@[simp] theorem length_streamBlock (P : Config.Params) (seed state : Bytes) :
    (streamBlock P seed state).length = 32 :=
  length_slice_of_le (by simp)

theorem streamBlocks_succ (P : Config.Params) (seed : Bytes) (n : Nat) (state : Bytes) :
    streamBlocks P seed (n + 1) state
      = streamBlock P seed state ++ streamBlocks P seed n (rollState P seed state) := by
  rw [streamBlocks, List.range_succ_eq_map, List.flatMap_cons, List.flatMap_map]
  rfl

/-- An emitted piece, the remainder included, is the uncut block cut to the bytes left. -/
theorem slice_min_eq_take_streamBlock (P : Config.Params) (seed state : Bytes) (left : Nat) :
    slice (P.h64 (state ++ seed)).toList 0 (min 32 left) = (streamBlock P seed state).take left := by
  rw [streamBlock, slice, slice, List.take_take, Nat.sub_zero, Nat.sub_zero, Nat.min_comm]

theorem expandLoop_zero (P : Config.Params) (seed : Bytes) (fuel : Nat) (state : Bytes) :
    expandLoop P seed fuel 0 state = [] := by
  cases fuel <;> rfl

theorem expandLoop_succ (P : Config.Params) (seed : Bytes) (fuel left : Nat) (state : Bytes) :
    expandLoop P seed (fuel + 1) left state
      = (streamBlock P seed state).take left
        ++ expandLoop P seed fuel (left - 32) (rollState P seed state) := by
  rw [expandLoop]
  split
  case isTrue h => rw [h, List.take_zero, Nat.zero_sub, expandLoop_zero, List.append_nil]
  case isFalse h =>
    have hrest : left - min 32 left = left - 32 := by omega
    simp only [slice_min_eq_take_streamBlock, hrest, rollState]

/-- The loop's bytes are a prefix of any number of blocks that covers them: how many blocks there are
beyond the length asked for does not matter. -/
theorem expandLoop_eq_take_streamBlocks (P : Config.Params) (seed : Bytes) {fuel left n : Nat} (state : Bytes)
    (hfuel : left ≤ fuel) (hn : left ≤ 32 * n) :
    expandLoop P seed fuel left state = (streamBlocks P seed n state).take left := by
  induction fuel generalizing left n state with
  | zero => rw [Nat.le_zero.mp hfuel, expandLoop_zero, List.take_zero]
  | succ fuel ih =>
    cases n with
    | zero =>
      have hleft : left = 0 := by omega
      rw [hleft, expandLoop_zero, List.take_zero]
    | succ n =>
      rw [expandLoop_succ, ih (n := n) _ (by omega) (by omega), streamBlocks_succ, List.take_append,
        length_streamBlock]

theorem expand_eq_take_streamBlocks (P : Config.Params) (seed : Bytes) {len n : Nat} (hn : len ≤ 32 * n) :
    expand P len seed = (streamBlocks P seed n seed).take len :=
  expandLoop_eq_take_streamBlocks P seed seed (Nat.le_refl len) hn

/-- Settles O54: the stream is cut from the least number of blocks that covers its length. -/
theorem expandIsTheRollingHashStream : Obligations.ExpandIsTheRollingHashStream := by
  intro P seed len
  exact expand_eq_take_streamBlocks P seed (by omega)

/-- Settles O55: both streams are cut from the blocks that cover the longer one. -/
theorem expandShorterIsAPrefix : Obligations.ExpandShorterIsAPrefix := by
  intro P seed short long h
  rw [expand_eq_take_streamBlocks P seed (n := long) (len := short) (by omega),
    expand_eq_take_streamBlocks P seed (n := long) (len := long) (by omega), List.take_take, Nat.min_eq_left h]

end Sys2Proof.Machine

/-! SUPPORT. The hash-chain engine (43_hash_chain.md): the loop of R151 as a fold of the step hash over the
indices of R152. -/

namespace Sys2Proof.Machine

/-! ### The indices a chain visits (R152) -/

/-- The hash-step indices of `n` requested steps from `s`: up to the cap, and none from 16 on. -/
def chainIndices (s n : Nat) : List Nat := List.range' s (min (s + n) 16 - s)

theorem chainIndices_zero (s : Nat) : chainIndices s 0 = [] := by
  rw [chainIndices, show min (s + 0) 16 - s = 0 by omega, List.range'_zero]

theorem chainIndices_of_le {s : Nat} (n : Nat) (h : 16 ≤ s) : chainIndices s n = [] := by
  rw [chainIndices, show min (s + n) 16 - s = 0 by omega, List.range'_zero]

theorem chainIndices_succ {s : Nat} (n : Nat) (h : s < 16) :
    chainIndices s (n + 1) = s :: chainIndices (s + 1) n := by
  rw [chainIndices, chainIndices, ← List.range'_succ]
  congr 1
  omega

/-- Below the cap the first segment runs in full, so the second takes up where it ends. -/
theorem chainIndices_append {s a : Nat} (b : Nat) (h : s + a ≤ 16) :
    chainIndices s a ++ chainIndices (s + a) b = chainIndices s (a + b) := by
  have hfirst : min (s + a) 16 - s = a := by omega
  have hboth : a + (min (s + a + b) 16 - (s + a)) = min (s + (a + b)) 16 - s := by omega
  rw [chainIndices, chainIndices, chainIndices, hfirst, List.range'_append_1, hboth]

/-! ### One step, and the loop as the fold of it (R151) -/

/-- F at hash-step index `j`: the body of R151's loop, word 7 left as it stands. -/
def chainStepAt (P : Config.Params) (ps : Bytes) (w : ChainAddr) (v : Bytes) (j : Nat) : Bytes :=
  chainStepHash P v ps { w with step := BitVec.ofNat 32 j }

/-- Of the chain-address a step reads words 0 to 5: word 6 is its index, word 7 is F's own (R114). -/
theorem chainStepAt_congr (P : Config.Params) (ps : Bytes) {w w' : ChainAddr} (hhead : w.head = w'.head)
    (hchain : w.chain = w'.chain) : chainStepAt P ps w = chainStepAt P ps w' := by
  obtain ⟨head, chain, step, sel⟩ := w
  obtain ⟨head', chain', step', sel'⟩ := w'
  subst hhead hchain
  rfl

theorem chainLoop_eq_foldl (P : Config.Params) (ps : Bytes) (left i : Nat) (v : Bytes) (w : ChainAddr) :
    chainLoop P ps left i v w = (chainIndices i left).foldl (chainStepAt P ps w) v := by
  induction left generalizing i v w with
  | zero => rw [chainIndices_zero]; rfl
  | succ left ih =>
    by_cases hi : i < 16
    case pos =>
      rw [chainLoop, if_pos hi, ih, chainIndices_succ left hi, List.foldl_cons]
      -- The address handed on differs from `w` in words 6 and 7 only.
      rw [chainStepAt_congr P ps (w' := w) rfl rfl]
      rfl
    case neg => rw [chainLoop, if_neg hi, chainIndices_of_le _ (by omega), List.foldl_nil]

theorem chain_eq_foldl (P : Config.Params) (v : Bytes) (s n : Nat) (ps : Bytes) (w : ChainAddr) :
    chain P v s n ps w = (chainIndices s n).foldl (chainStepAt P ps w) v :=
  chainLoop_eq_foldl P ps n s v w

/-- Settles O51: the loop is the fold over the indices of R152. -/
theorem chainStepsRunFromStartToTheCap : Obligations.ChainStepsRunFromStartToTheCap :=
  fun P v ps w s n => chain_eq_foldl P v s n ps w

/-! ### The laws of the chain (R154) -/

theorem chain_chain (P : Config.Params) (v ps : Bytes) (w : ChainAddr) {s a : Nat} (b : Nat) (h : s + a ≤ 16) :
    chain P (chain P v s a ps w) (s + a) b ps w = chain P v s (a + b) ps w := by
  rw [chain_eq_foldl, chain_eq_foldl, chain_eq_foldl, ← List.foldl_append, chainIndices_append b h]

theorem chain_one (P : Config.Params) (v ps : Bytes) (w : ChainAddr) {j : Nat} (h : j ≤ 15) :
    chain P v j 1 ps w = chainStepHash P v ps { w with step := BitVec.ofNat 32 j } := by
  rw [chain_eq_foldl, chainIndices_succ 0 (by omega), chainIndices_zero]
  rfl

theorem chain_of_le (P : Config.Params) (v ps : Bytes) (w : ChainAddr) {s : Nat} (n : Nat) (h : 16 ≤ s) :
    chain P v s n ps w = v := by
  rw [chain_eq_foldl, chainIndices_of_le n h, List.foldl_nil]

/-- A chain reads words 0 to 5 of the chain-address it is given. -/
theorem chain_congr (P : Config.Params) (v ps : Bytes) (s n : Nat) {w w' : ChainAddr}
    (hhead : w.head = w'.head) (hchain : w.chain = w'.chain) : chain P v s n ps w = chain P v s n ps w' := by
  rw [chain_eq_foldl, chain_eq_foldl, chainStepAt_congr P ps hhead hchain]

/-- Settles O50: the laws of the fold, and of the index lists it runs over. -/
theorem chainComposesAndStopsAtTheCap : Obligations.ChainComposesAndStopsAtTheCap := by
  intro P v ps w
  refine ⟨?composition, ?one_step, ?no_step, ?past_the_end, ?words_6_and_7⟩
  case composition => exact fun s a b h => chain_chain P v ps w b h
  case one_step => exact fun j h => chain_one P v ps w h
  case no_step => exact fun s => rfl
  case past_the_end => exact fun s n h => chain_of_le P v ps w n h
  case words_6_and_7 => exact fun s n x y => chain_congr P v ps s n rfl rfl

/-! ### The tag's tail (R150) -/

theorem slice_take (s : Bytes) {i j n : Nat} (h : j ≤ n) : slice (s.take n) i j = slice s i j := by
  rw [slice, slice, List.drop_take, List.take_take, Nat.min_eq_left (by omega)]

/-- Words 0 to 4 lie in bytes 0 to 19. -/
theorem caddrWord_eq_of_take_eq (P : Config.Params) {tag tag' : Bytes} (h : tag.take 20 = tag'.take 20)
    {j : Nat} (hj : j < 5) : caddrWord P tag j = caddrWord P tag' j := by
  have hend : 4 * j + 4 ≤ 20 := by omega
  rw [caddrWord, caddrWord, ← slice_take tag hend, ← slice_take tag' hend, h]

theorem loadCaddr_head_eq_of_take_eq (P : Config.Params) {tag tag' : Bytes}
    (h : tag.take 20 = tag'.take 20) : (loadCaddr P tag).head = (loadCaddr P tag').head := by
  have hword (j : Nat) (hj : j < 5) := caddrWord_eq_of_take_eq P h hj
  simp only [loadCaddr, hword, Nat.reduceLT]

/-- Settles O52: the two tags load the same words 0 to 4, and the index stands in word 5 of both. -/
theorem tagTailNeverReachesAHash : Obligations.TagTailNeverReachesAHash := by
  intro P tag tag' v ps c s n _ _ htake
  exact ⟨rfl, rfl, chain_congr P v ps s n (loadCaddr_head_eq_of_take_eq P htake) rfl⟩

end Sys2Proof.Machine

/-! SUPPORT. The message-digest encoder (44_message_encoder.md): the digits of a byte string one by one, and the
checksum's two bytes. -/

namespace Sys2Proof.Machine

/-! ### The digits of a byte string (R170) -/

theorem base16_cons (x : Byte) (b : Bytes) :
    base16 (x :: b) = x.toNat / 16 :: x.toNat % 16 :: base16 b := rfl

/-- The two digits of byte k. -/
theorem getElem?_base16 {b : Bytes} {k : Nat} (h : k < b.length) :
    (base16 b)[2 * k]? = some ((b.getD k 0).toNat / 16)
      ∧ (base16 b)[2 * k + 1]? = some ((b.getD k 0).toNat % 16) := by
  induction b generalizing k with
  | nil => exact absurd h (Nat.not_lt_zero k)
  | cons x b ih =>
    cases k with
    | zero => exact ⟨rfl, rfl⟩
    | succ k =>
      -- The first byte's two digits stand before those of `b`.
      rw [base16_cons, Nat.mul_succ]
      exact ih (Nat.lt_of_succ_lt_succ h)

/-! ### The checksum's bytes (R171) -/

theorem cbytes_eq (m : List Nat) :
    cbytes m = [BitVec.ofNat 8 (csum m * 16 / 256), BitVec.ofNat 8 (csum m * 16)] := rfl

/-- Settles O57: by induction on the bytes for the digits; the checksum of 64 digits is at most 960, so it
fits the three nibbles. -/
theorem checksumDigitsAreItsNibbles : Obligations.ChecksumDigitsAreItsNibbles := by
  refine ⟨fun b => ⟨length_base16 b, fun k hk => getElem?_base16 hk⟩, fun m hlen _ => ?_⟩
  have hmax : csum m ≤ 960 := by
    have h := csum_le m
    rwa [hlen] at h
  exact ⟨csum_eq_sum_range hlen, hmax, cbytes_eq m, cdigits_eq_nibbles (by omega)⟩

end Sys2Proof.Machine

/-! SUPPORT. The WOTS+ engine (45_wots_api.md): the parts of an address, and that completing a signature's chains
gives the chain tops, so that a genuine signature verifies. -/

namespace Sys2Proof.Machine

/-! ### A digit is at most 15 (R170 to R172) -/

theorem le_fifteen_of_mem_base16 {b : Bytes} {d : Nat} (h : d ∈ base16 b) : d ≤ 15 := by
  obtain ⟨x, -, hd⟩ := List.mem_flatMap.mp h
  have hx := x.isLt
  simp only [List.mem_cons, List.not_mem_nil, or_false] at hd
  omega

theorem le_fifteen_of_mem_digits {P : Config.Params} {msg : Bytes} {d : Nat} (h : d ∈ digits P msg) :
    d ≤ 15 := by
  obtain hmsg | hsum := List.mem_append.mp h
  · exact le_fifteen_of_mem_base16 hmsg
  · exact le_fifteen_of_mem_base16 (List.mem_of_mem_take hsum)

/-- A digit as `signMessage` and `pkFromSig` read it. -/
theorem getD_digits_le (P : Config.Params) (msg : Bytes) (i : Nat) : (digits P msg).getD i 0 ≤ 15 := by
  rw [List.getD_eq_getElem?_getD]
  cases hd : (digits P msg)[i]? with
  | none => exact Nat.zero_le 15
  | some d => exact le_fifteen_of_mem_digits (List.mem_of_getElem? hd)

/-! ### The parts of an address (R190) -/

theorem slice_append_middle {a b : Bytes} (c : Bytes) {i j : Nat} (hi : a.length = i)
    (hj : i + b.length = j) : slice (a ++ b ++ c) i j = b := by
  rw [slice, List.append_assoc, List.drop_left' hi]
  exact List.take_left' (by omega)

/-- The tops of the 67 chains of a secret. -/
def chainTops (P : Config.Params) (secret : Bytes) : Bytes :=
  perChain fun i => chain P (chainBase P secret i) 0 15 (publicMaterial P secret).1
    (chainAddrOf P (publicMaterial P secret).2 (BitVec.ofNat 32 i))

@[simp] theorem length_chainTops (P : Config.Params) (secret : Bytes) : (chainTops P secret).length = 2144 :=
  length_perChain fun i _ => length_chain _ _ _ _ _ (length_chainBase P secret i)

theorem keypair_fst_eq (P : Config.Params) (seed : Bytes) :
    (keypair P seed).1 = chainTops P (keypair P seed).2 ++ (publicMaterial P (keypair P seed).2).1
      ++ (publicMaterial P (keypair P seed).2).2 := rfl

theorem slice_keypair_tops (P : Config.Params) (seed : Bytes) :
    slice (keypair P seed).1 0 2144 = chainTops P (keypair P seed).2 := by
  rw [keypair_fst_eq, List.append_assoc, slice, List.drop_zero]
  exact List.take_left' (length_chainTops P _)

theorem slice_keypair_pubseed (P : Config.Params) (seed : Bytes) :
    slice (keypair P seed).1 2144 2176 = (publicMaterial P (keypair P seed).2).1 := by
  rw [keypair_fst_eq]
  exact slice_append_middle _ (length_chainTops P _) (by simp)

theorem slice_keypair_tag (P : Config.Params) (seed : Bytes) :
    slice (keypair P seed).1 2176 2208 = (publicMaterial P (keypair P seed).2).2 := by
  rw [keypair_fst_eq, ← List.append_nil (_ ++ _)]
  exact slice_append_middle [] (by simp) (by simp)

/-! ### Signing and recovering (R191, R192) -/

theorem perChain_congr {f g : Nat → Bytes} (h : ∀ i < 67, f i = g i) : perChain f = perChain g :=
  List.flatMap_congr fun i hi => h i (List.mem_range.mp hi)

/-- Segment i of a signature is chain i, its message digit's steps above the base. -/
theorem slice_signMessage (P : Config.Params) (msg secret : Bytes) {i : Nat} (hi : i < 67) :
    slice (signMessage P msg secret) (32 * i) (32 * i + 32)
      = chain P (chainBase P secret i) 0 ((digits P msg).getD i 0) (publicMaterial P secret).1
          (chainAddrOf P (publicMaterial P secret).2 (BitVec.ofNat 32 i)) :=
  slice_flatMap_const (fun j _ => length_chain _ _ _ _ _ (length_chainBase P secret j)) hi

/-- The `d` steps of a signature and the `15 − d` steps of its completion are the 15 steps to the top. -/
theorem chain_completed (P : Config.Params) (v ps : Bytes) (w : ChainAddr) {d : Nat} (h : d ≤ 15) :
    chain P (chain P v 0 d ps w) d (15 - d) ps w = chain P v 0 15 ps w := by
  have hcompose := chain_chain P v ps w (s := 0) (a := d) (15 - d) (by omega)
  rwa [Nat.zero_add, Nat.add_sub_cancel' h] at hcompose

theorem pkFromSig_signMessage (P : Config.Params) (msg secret : Bytes) :
    pkFromSig P (signMessage P msg secret) msg (publicMaterial P secret).1 (publicMaterial P secret).2
      = chainTops P secret := by
  rw [pkFromSig, chainTops]
  refine perChain_congr fun i hi => ?_
  rw [slice_signMessage P msg secret hi, chain_completed _ _ _ _ (getD_digits_le P msg i)]

/-- Settles O59: the chains of the signature, completed, are the address's tops. -/
theorem signedMessagesVerify : Obligations.SignedMessagesVerify := by
  intro P seed msg A sig
  have htops : pkFromSig P sig msg (slice A 2144 2176) (slice A 2176 2208) = slice A 0 2144 := by
    rw [slice_keypair_pubseed, slice_keypair_tag, slice_keypair_tops]
    exact pkFromSig_signMessage P msg (keypair P seed).2
  exact ⟨htops, (verifySig_eq_true P sig msg A).mpr htops⟩

/-! ### The commands VERIFY and GENR (R195, R198) -/

/-- Settles O60: VERIFY's RESULT is the outcome of `verifySig` on its inputs, by O59 true on these. -/
theorem verifyCommandAcceptsAGenuineSignature : Obligations.VerifyCommandAcceptsAGenuineSignature := by
  intro s seed h0 h1 h2 haddress hsig
  have hverify : verifySig hw (s.input 0) (s.input 1) (s.input 2) = true := by
    rw [haddress, hsig]
    exact (signedMessagesVerify hw seed (s.input 1)).2
  have hexec := exec_verify_of_check_none (checkOperands_of_rolesMet h0 h1 h2 trivial trivial trivial)
  rwa [hverify] at hexec

/-- Settles O29: the draw comes after the checks, and its failure is the error ENTROPY. -/
theorem genrFailedDrawEndsInEntropy : Obligations.GenrFailedDrawEndsInEntropy := by
  intro s h0 h1 hdraw
  exact exec_genr_of_fail (checkOperands_genr h0 h1) hdraw

end Sys2Proof.Machine

/-! SUPPORT. The statements about erroneous commands (60_exceptions.md R220, R221): what an error leaves
unchanged, and which causes it can have. -/

namespace Sys2Proof.Machine

/-! ### What an error leaves unchanged (R221) -/

/-- A command that ends in an error writes no WMEM byte; one that writes its outputs ends without. -/
theorem CommandEnd.wmem_eq_of_err {s t : State} (h : CommandEnd s t) (herr : t.err = true) :
    t.wmem = s.wmem := by
  cases h with
  | error => rfl
  | finish => cases herr

/-- Settles O15. -/
theorem erroneousCommandWritesNothing : Obligations.ErroneousCommandWritesNothing := by
  intro s t hnext hstep herr
  have hend : CommandEnd s.popped t := commandEnd_of_perform ((step_of_engineNext hnext).symm.trans hstep)
  exact ⟨hend.wmem_eq_of_err herr, hend.args_eq, hend.cmd_eq⟩

/-! ### The causes of an error (R220) -/

/-- The error an ARG's checks report is that of a check of this ARG that fails. -/
theorem cause_of_checkOperand {i : Instr} {args : Vector Word 6} {k : Fin 6} {e : CmdError}
    (h : checkOperand hw i args k = some e) :
    (lengthFails i args k ∧ e = ⟨.length, k⟩) ∨ (boundsFails i args k ∧ e = ⟨.bounds, k⟩) := by
  by_cases hlen : lengthFails i args k
  · rw [checkOperand_of_lengthFails hlen] at h
    exact .inl ⟨hlen, (Option.some.inj h).symm⟩
  · by_cases hbounds : boundsFails i args k
    · rw [checkOperand_of_boundsFails hlen hbounds] at h
      exact .inr ⟨hbounds, (Option.some.inj h).symm⟩
    · rw [checkOperand_of_passes ⟨hlen, hbounds⟩] at h
      cases h

/-- The three bits of ERRARG hold the number of every ARG. -/
theorem toNat_raise_errarg (s : State) (e : CmdError) : (s.raise e).errarg.toNat = e.arg.val := by
  rw [State.raise_errarg, BitVec.toNat_ofNat]
  omega

/-- Settles O16: a failing check is the cause of its error, and past the checks only GENR's draw can fail. -/
theorem errorCodesNameTheirCauses : Obligations.ErrorCodesNameTheirCauses := by
  intro i s t h herr
  cases hc : checkOperands hw i s.args with
  | some e =>
    cases (exec_of_check_some hc).symm.trans h
    obtain ⟨k, -, hk⟩ := List.exists_of_findSome?_eq_some hc
    obtain ⟨hlen, rfl⟩ | ⟨hbounds, rfl⟩ := cause_of_checkOperand hk
    · exact .inl ⟨k, hlen, rfl, toNat_raise_errarg s _⟩
    · exact .inr (.inl ⟨k, hbounds, rfl, toNat_raise_errarg s _⟩)
  | none =>
    obtain ⟨outs, r, hexec, -⟩ | ⟨hgenr, hdraw, hexec⟩ := exec_of_check_none hc <;>
      cases hexec.symm.trans h
    · cases herr
    · exact .inr (.inr ⟨hgenr, hdraw, rfl, rfl⟩)

end Sys2Proof.Machine

/-! SUPPORT. The statements about the resets and the accesses made while a command is in flight
(70_reset_and_hazards.md R250 to R253, R257): every reset leaves a reset state, and of WMEM an abort changes
the checked output buffers only. -/

namespace Sys2Proof.Machine

/-! ### The step of each reset (R250, R251) -/

section
variable (s : State) (rest : List Event)

theorem step_softReset {v : Word} (h1 : v[1] = true) :
    step { s with events := .access (.write 0x008 .word v) :: rest }
      = .next ((({ s with events := rest } : State).resetPowered hw).answer .written) := by
  rw [step_write_register s rest v (regAt_eq_ctrl.mpr rfl) (by decide) (by decide), writeReg_ctrl_reset h1]

theorem step_resetInput :
    step { s with events := .resetInput :: rest }
      = .next (({ s with events := rest } : State).resetPowered hw) := rfl

theorem step_powerOn :
    step { s with events := .powerOn :: rest } = .next (({ s with events := rest } : State).powerOn hw) := rfl

end

/-! ### What an abort changes (R252) -/

section
variable {i : Instr} {args : Vector Word 6} {k : Fin 6} {f : Option Nat}

/-- A descriptor operand passes when the model's two checks of it do. -/
theorem operandPasses_of_checks (hrole : descriptorOperand i k f) (hlen : lengthOk f (descOf args[k]) = true)
    (hfit : boundsOk hw (descOf args[k]) = true) : operandPasses i args k := by
  rw [operandPasses, lengthFails_iff hrole, boundsFails_iff hrole, hlen, hfit]
  decide

/-- The buffers an abort frees are those of the outputs that pass their checks. -/
theorem output_of_mem_outputBuffers {d : Desc} (h : d ∈ outputBuffers hw i args) :
    ∃ (k : Fin 6) (f : Option Nat),
      (operandRoles i)[k] = .output f ∧ operandPasses i args k ∧ descOf args[k] = d := by
  obtain ⟨k, -, hk⟩ := List.mem_filterMap.mp h
  split at hk
  next f hrole =>
    obtain ⟨hchecks, hd⟩ := Option.ite_none_right_eq_some.mp hk
    obtain ⟨hlen, hfit⟩ := Bool.and_eq_true_iff.mp hchecks
    exact ⟨k, f, hrole, operandPasses_of_checks (.inr hrole) hlen hfit, Option.some.inj hd⟩
  all_goals cases hk

end

theorem decodes_of_mem_abortedBuffers {P : Config.Params} {s : State} {d : Desc}
    (h : d ∈ s.abortedBuffers P) : ∃ i, decode s.cmd = .ok i ∧ d ∈ outputBuffers P i s.args := by
  unfold State.abortedBuffers at h
  split at h
  next i hdec => exact ⟨i, hdec, h⟩
  next => cases h

/-- Outside the checked output buffers of the command in flight an abort leaves WMEM as it is. -/
theorem read_scrambleOutputs_outside {s : State} {a : Nat}
    (h : ∀ i, decode s.cmd = .ok i → ¬ inCheckedOutputBuffer i s.args a) :
    Memory.read (s.scrambleOutputs hw).wmem a = Memory.read s.wmem a := by
  refine Memory.read_writeList_outside _ _ a fun w hmem => ?_
  obtain ⟨d, hd, rfl⟩ := List.mem_map.mp hmem
  obtain ⟨i, hdec, hbuf⟩ := decodes_of_mem_abortedBuffers hd
  obtain ⟨k, f, hrole, hpass, rfl⟩ := output_of_mem_outputBuffers hbuf
  have hout : ¬ ((descOf s.args[k]).addr ≤ a ∧ a < (descOf s.args[k]).addr + (descOf s.args[k]).len) :=
    fun hin => h i hdec ⟨k, f, hrole, hpass, hin⟩
  rw [length_freeBytes]
  omega

/-- Settles O37: both resets leave the memory of the abort, which keeps every byte outside. -/
theorem abortChangesOutputBuffersOnly : Obligations.AbortChangesOutputBuffersOnly := by
  intro s rest v h1 hb unchangedOutside
  have hout : unchangedOutside (s.scrambleOutputs hw).wmem := fun a ha => read_scrambleOutputs_outside ha
  refine ⟨⟨_, ?_, hout⟩, ⟨_, ?_, hout⟩⟩
  · rw [step_softReset s rest h1, resetPowered_busy (by exact hb)]
    rfl
  · rw [step_resetInput, resetPowered_busy (by exact hb)]
    rfl

/-! ### The state every reset leaves (R37, R253) -/

theorem resetPowered_eq_resetState (P : Config.Params) (s : State) :
    ∃ m n, s.resetPowered P = resetState s m n := by
  rcases Bool.eq_false_or_eq_true s.busy with hb | hb
  · exact ⟨_, _, resetPowered_busy hb⟩
  · exact ⟨_, _, resetPowered_idle hb⟩

/-- Each of the three resets leaves a reset state, with the later events still waiting. -/
theorem step_reset_eq_resetState (s : State) (rest : List Event) {v : Word} {e : Event} (h1 : v[1] = true)
    (he : e = .powerOn ∨ e = .resetInput ∨ e = .access (.write 0x008 .word v)) :
    ∃ s' m n, step { s with events := e :: rest } = .next (resetState s' m n) ∧ s'.events = rest := by
  obtain ⟨m, n, hreset⟩ := resetPowered_eq_resetState hw { s with events := rest }
  obtain rfl | rfl | rfl := he
  · exact ⟨_, _, _, by rw [step_powerOn, powerOn_eq_resetState], rfl⟩
  · exact ⟨_, m, n, by rw [step_resetInput, hreset], rfl⟩
  · exact ⟨({ s with events := rest } : State).answer .written, m, n,
      by rw [step_softReset s rest h1, hreset]; rfl, rfl⟩

theorem resetState_statusWord (s : State) (m : Memory) (n : Nat) : (resetState s m n).statusWord = 0 := by
  simp [State.statusWord, resetState]

theorem resetState_arg (s : State) (m : Memory) (n : Nat) (k : Fin 6) : (resetState s m n).args[k] = 0 := by
  fin_cases k <;> rfl

/-- An idle block without an event stays as it is. -/
theorem step_of_idle_of_no_event {s : State} (hb : s.busy = false) (hev : s.events = []) :
    step s = .next s := by
  simp [step, hev, engineTurn, hb]

/-- Settles O38: the fields of a reset state, and that of all transitions only a start sets BUSY. -/
theorem everyResetLeavesTheBlockIdle : Obligations.EveryResetLeavesTheBlockIdle := by
  intro s rest v e h1 he
  obtain ⟨s', m, n, hstep, hrest⟩ := step_reset_eq_resetState s rest h1 he
  have hidle : (resetState s' m n).busy = false := rfl
  refine ⟨_, hstep, hidle, rfl, rfl, resetState_statusWord s' m n, rfl, resetState_arg s' m n, rfl,
    paramWord_hw, fun hnone => step_of_idle_of_no_event hidle (hrest.trans hnone), fun u hu hbusy => ?_⟩
  exact (transition_of_step hu).busy_set hbusy |>.resolve_left (by simp [hidle])

/-! ### A read of WMEM while a command is in flight (R257) -/

/-- Settles O48: the read answers free bytes and uses up a free choice. -/
theorem wmemReadWhileBusyChangesNothing : Obligations.WmemReadWhileBusyChangesNothing := by
  intro s rest off width n hb hlo hn ha
  refine ⟨({ s with events := rest } : State).readWindow hw (off.toNat - wmemWindow) n, ?_⟩
  rw [step_access rfl, access_read_window hlo hn ha, afterReadWindow_busy (wmemOffset_lt off) (by exact hb)]
  rfl

end Sys2Proof.Machine

/-! SUPPORT. Why the checksum matters (44_message_encoder.md R177): raising message digits lowers the checksum,
and with it a checksum digit, so of two different digests neither digit vector is at or above the other at
every digit. -/

namespace Sys2Proof.Machine

/-- Distinct byte strings have distinct digits: each byte is read back from its two nibbles (R170). -/
theorem base16_injective : Function.Injective base16 := by
  intro b b' h
  induction b generalizing b' with
  | nil =>
    cases b' with
    | nil => rfl
    | cons x' b' => exact absurd h (List.cons_ne_nil _ _).symm
  | cons x b ih =>
    cases b' with
    | nil => exact absurd h (List.cons_ne_nil _ _)
    | cons x' b' =>
      obtain ⟨hhigh, hlow, hrest⟩ : x.toNat / 16 = x'.toNat / 16 ∧ x.toNat % 16 = x'.toNat % 16
          ∧ base16 b = base16 b' := by simpa [base16_cons] using h
      have hx : x = x' := BitVec.eq_of_toNat_eq (by omega)
      rw [hx, ih hrest]

theorem csum_cons (d : Nat) (m : List Nat) : csum (d :: m) = 15 - d + csum m := by simp [csum]

/-- Raising digits lowers the checksum (R177). -/
theorem csum_le_of_forall₂_le {m m' : List Nat} (h : List.Forall₂ (· ≤ ·) m m') : csum m' ≤ csum m := by
  induction h with
  | nil => exact le_rfl
  | cons hd _ ih =>
    rw [csum_cons, csum_cons]
    omega

/-- Raised digits that keep the checksum are the same digits. -/
theorem eq_of_forall₂_le_of_csum_le {m m' : List Nat} (h : List.Forall₂ (· ≤ ·) m m')
    (hmax : ∀ d ∈ m', d ≤ 15) (hsum : csum m ≤ csum m') : m = m' := by
  induction h with
  | nil => rfl
  | @cons d d' m m' hd hrest ih =>
    obtain ⟨hd', hmax'⟩ := List.forall_mem_cons.mp hmax
    have hle := csum_le_of_forall₂_le hrest
    rw [csum_cons, csum_cons] at hsum
    have heq : d = d' := by omega
    rw [heq, ih hmax' (by omega)]

/-- Checksum digits that all are at most another's belong to a checksum at most the other. -/
theorem csum_le_of_forall₂_cdigits {m m' : List Nat} (hm : csum m < 4096) (hm' : csum m' < 4096)
    (h : List.Forall₂ (· ≤ ·) (cdigits m) (cdigits m')) : csum m ≤ csum m' := by
  rw [cdigits_eq_nibbles hm, cdigits_eq_nibbles hm'] at h
  simp only [List.forall₂_cons, List.forall₂_nil_left_iff, and_true] at h
  omega

theorem csum_base16_lt {g : Bytes} (h : g.length = 32) : csum (base16 g) < 4096 := by
  have hmax := csum_le (base16 g)
  rw [length_base16, h] at hmax
  omega

/-- A digit vector at or above another at every digit has its message digits and its checksum digits there. -/
theorem forall₂_parts_of_forall₂_encodeDigits {g g' : Bytes} (hlen : g.length = g'.length)
    (h : List.Forall₂ (· ≤ ·) (encodeDigits g) (encodeDigits g')) :
    List.Forall₂ (· ≤ ·) (base16 g) (base16 g')
      ∧ List.Forall₂ (· ≤ ·) (cdigits (base16 g)) (cdigits (base16 g')) := by
  have hmsg : (base16 g).length = (base16 g').length := by simp [hlen]
  have htake := List.forall₂_take_append _ _ _ h
  have hdrop := List.forall₂_drop_append _ _ _ h
  rw [encodeDigits, List.take_left' hmsg] at htake
  rw [encodeDigits, List.drop_left' hmsg] at hdrop
  exact ⟨htake, hdrop⟩

/-- A digit vector dominates only itself: the raised message digits lower the checksum, the raised checksum
digits raise it, so both stay. -/
theorem eq_of_forall₂_encodeDigits {g g' : Bytes} (hg : g.length = 32) (hg' : g'.length = 32)
    (h : List.Forall₂ (· ≤ ·) (encodeDigits g) (encodeDigits g')) : g = g' := by
  obtain ⟨hmsg, hsum⟩ := forall₂_parts_of_forall₂_encodeDigits (hg.trans hg'.symm) h
  have hle := csum_le_of_forall₂_cdigits (csum_base16_lt hg) (csum_base16_lt hg') hsum
  exact base16_injective (eq_of_forall₂_le_of_csum_le hmsg (fun _ => le_fifteen_of_mem_base16) hle)

/-- Lists of one length compare digit by digit as `getD` reads them. -/
theorem forall₂_le_of_getD_le {l l' : List Nat} {n : Nat} (hl : l.length = n) (hl' : l'.length = n)
    (h : ∀ i < n, l.getD i 0 ≤ l'.getD i 0) : List.Forall₂ (· ≤ ·) l l' := by
  refine List.forall₂_iff_get.mpr ⟨hl.trans hl'.symm, fun i hi hi' => ?_⟩
  have hdigit := h i (hl ▸ hi)
  rwa [List.getD_eq_getElem _ _ hi, List.getD_eq_getElem _ _ hi'] at hdigit

/-- Settles O58: were no digit below, the second vector would dominate the first, and the digests be equal. -/
theorem noDigitVectorDominatesAnother : Obligations.NoDigitVectorDominatesAnother := by
  intro g g' hg hg' hne
  by_contra hnone
  have hdominates : ∀ i < 67, (encodeDigits g).getD i 0 ≤ (encodeDigits g').getD i 0 :=
    fun i hi => Nat.le_of_not_lt fun hlt => hnone ⟨i, hi, hlt⟩
  exact hne (eq_of_forall₂_encodeDigits hg hg'
    (forall₂_le_of_getD_le (length_encodeDigits hg) (length_encodeDigits hg') hdominates))

end Sys2Proof.Machine
